-- ==== Sys2Proof/Word.lean ====
section
/-! DEFINITION. The widths of the machine's values (spec/00_scope.md R9): every one is unsigned. -/

namespace Sys2Proof

/-- u8: a V register, a timer, a byte of memory. -/
abbrev Byte := BitVec 8

/-- u16: I, PC, a return address, an instruction word. -/
abbrev Word := BitVec 16

/-- u4: a register index, a key index, a row count (R14). -/
abbrev Nibble := BitVec 4

/-- The 12-bit address field nnn (R14). -/
abbrev Addr12 := BitVec 12

end Sys2Proof
end

