-- ==== Sys2Proof/Machine/Flags.lean ====
section
/-! DEFINITION. Every flag the instructions write to VF but the draw's (spec/10_state.md R40): each
is a comparison of exact values or a bit of the operand. -/

namespace Sys2Proof.Machine

/-- 8xy4: carry, a + b > 255 (R40, R192). -/
def carryFlag (a b : Byte) : Bool := decide (a.toNat + b.toNat > 255)

/-- 8xy5 and 8xy7: not-borrow, the minuend at least the subtrahend (R40, R192). -/
def notBorrowFlag (minuend subtrahend : Byte) : Bool := decide (minuend.toNat ≥ subtrahend.toNat)

/-- 8xy6: bit 0 of the operand before the shift (R40). -/
def shiftRightFlag (a : Byte) : Bool := a.getLsbD 0

/-- 8xyE: bit 7 of the operand before the shift (R40). -/
def shiftLeftFlag (a : Byte) : Bool := a.getLsbD 7

/-- Fx1E: the exact sum exceeds 0xFFF (R40, spec/43_index_memory.md R211). -/
def addressFlag (i : Word) (a : Byte) : Bool := decide (i.toNat + a.toNat > 0xFFF)

end Sys2Proof.Machine
end

