-- ==== Sys2Proof/Config.lean ====
section
/-! DEFINITION. What an implementation fixes (spec/00_scope.md R8), what the environment supplies
(spec/10_state.md R60), and the model's one free value. -/

namespace Sys2Proof

/-- One event of the `events` input (R60). A key index is a u4, so no other index exists (R279). -/
inductive Event where
  | keyDown (k : Nibble)
  | keyUp (k : Nibble)
  | quit
  deriving DecidableEq, Repr

/-- The inputs of one iteration or poll (R60), sampled together. -/
structure Input where
  events : List Event
  tick : Bool
  rand : Byte
  deriving DecidableEq, Repr, Inhabited

/-- The parameters a model takes as arguments (R8). `stackDepth = none` is the unbounded stack of
the reference software (D5). -/
structure Params where
  stackDepth : Option Nat
  glyphRom : Vector Byte 80
  strictGroup0 : Bool
  deriving DecidableEq, Repr

/-- R8: `STACK_DEPTH` is any value at least 1, or unbounded. -/
abbrev Params.wf (p : Params) : Prop :=
  p.stackDepth ≠ some 0

/-- FREE VALUE (log entry 1). The inputs the environment supplies in iteration or poll number `n`
of a machine whose listed inputs are used up: any events, any tick, any random byte (R266, R269). -/
opaque Config.freeInput : Nat → Input

/-- The default `GLYPH_ROM` of spec/20_memory.md R84, one digit a line. -/
def Config.glyphRom : Vector Byte 80 := #v[
  0xF0, 0x90, 0x90, 0x90, 0xF0,
  0x20, 0x60, 0x20, 0x20, 0x70,
  0xF0, 0x10, 0xF0, 0x80, 0xF0,
  0xF0, 0x10, 0xF0, 0x10, 0xF0,
  0x90, 0x90, 0xF0, 0x10, 0x10,
  0xF0, 0x80, 0xF0, 0x10, 0xF0,
  0xF0, 0x80, 0xF0, 0x90, 0xF0,
  0xF0, 0x10, 0x20, 0x40, 0x40,
  0xF0, 0x90, 0xF0, 0x90, 0xF0,
  0xF0, 0x90, 0xF0, 0x10, 0xF0,
  0xF0, 0x90, 0xF0, 0x90, 0x90,
  0xE0, 0x90, 0xE0, 0x90, 0xE0,
  0xF0, 0x80, 0x80, 0x80, 0xF0,
  0xE0, 0x90, 0x90, 0x90, 0xE0,
  0xF0, 0x80, 0xF0, 0x80, 0xF0,
  0xF0, 0x80, 0xF0, 0x80, 0x80]

/-- The defaults of R8: STACK_DEPTH 16 (D5), the R84 font (D8), STRICT_GROUP0 false (D10). -/
def Config.defaults : Params where
  stackDepth := some 16
  glyphRom := Config.glyphRom
  strictGroup0 := false

end Sys2Proof
end

