-- ==== Sys2Proof/Machine/State.lean ====
section
/-! DEFINITION. The machine's state as one record (spec/10_state.md R50), and reset (R49). -/

namespace Sys2Proof.Machine

/-- The bytes of memory that differ from their reset content, by strictly rising address
(spec/20_memory.md R80). What an unlisted address reads as is `Memory.initial` (log entry 7). -/
abbrev Memory := List Host.Cell

/-- FB: 32 rows of 64 one-bit pixels, true = lit (R43). -/
abbrev Framebuffer := Vector (Vector Bool 64) 32

/-- The engine state `es` (R45). -/
inductive EngineState where
  | run
  | waitKey
  | halted
  deriving DecidableEq, Repr

/-- `halt_cause` (R46). -/
inductive HaltCause where
  | none
  | fault
  | quit
  | loadError
  deriving DecidableEq, Repr

/-- `fault_code` (R46): the names of spec/60_exceptions.md R250. Codes 8–15 never appear there, so
they have no name here; `FaultCode.code` gives the numbers (log entry 9). -/
inductive FaultCode where
  | none
  | unsupported
  | legacySys
  | stackUnderflow
  | stackOverflow
  | fetchOutOfRange
  | dataOutOfRange
  | keyOutOfRange
  deriving DecidableEq, Repr

/-- The interface's faults. There are none: every fault of the spec has a described entry (R256) and
is taken, so it is a next state, and HALTED goes on doing nothing (R273). See log entry 6. -/
inductive Fault where
  deriving DecidableEq, Repr

/-- The interface's refusals. -/
inductive Refusal where
  /-- Raised by an arm of `exec` whose instruction has no meaning yet, and by nothing else; no arm
  of this model raises it. Safe. -/
  | notModelled (mnemonic : String)
  deriving DecidableEq, Repr

/-- The machine state. The first fifteen fields are the spec's (R49); the last four are the model's
own (log entries 1 and 3). -/
structure State where
  /-- Memory (R80). -/
  mem : Memory
  /-- V0..VF (R30). -/
  v : Vector Byte 16
  /-- I (R33). -/
  i : Word
  /-- PC (R34). -/
  pc : Word
  /-- S, the call stack, its last element the top (R38, R10). -/
  stack : List Word
  /-- DT (R41). -/
  dt : Byte
  /-- ST (R42). -/
  st : Byte
  /-- FB (R43). -/
  fb : Framebuffer
  /-- K (R44). -/
  keys : Vector Bool 16
  /-- es (R45). -/
  es : EngineState
  /-- wait_x (R45). -/
  waitX : Nibble
  /-- halt_cause (R46). -/
  haltCause : HaltCause
  /-- fault_code (R46). -/
  faultCode : FaultCode
  /-- fault_pc (R46). -/
  faultPc : Word
  /-- fault_op (R46). -/
  faultOp : Word
  /-- The machine's parameters (R8); no step writes them. -/
  cfg : Params
  /-- The environment's inputs still to be sampled, oldest first (R60). -/
  inputs : List Input
  /-- How many inputs have been sampled. -/
  drawn : Nat
  /-- The `rand` port as sampled for this iteration (R60, R191). -/
  rand : Byte
  deriving DecidableEq, Repr

/-- The reset state of R49 for an empty image, under the parameters `p`. -/
def State.resetWith (p : Params) : State where
  mem := []
  v := Vector.replicate 16 0
  i := 0
  pc := 0x200
  stack := []
  dt := 0
  st := 0
  fb := Vector.replicate 32 (Vector.replicate 64 false)
  keys := Vector.replicate 16 false
  es := .run
  waitX := 0
  haltCause := .none
  faultCode := .none
  faultPc := 0
  faultOp := 0
  cfg := p
  inputs := []
  drawn := 0
  rand := 0

/-- The machine right after reset, with the default parameters (R49, R290). -/
def State.reset : State := State.resetWith Config.defaults

end Sys2Proof.Machine
end

