-- ==== Sys2Proof/Machine/Ops.lean ====
section
/-! DEFINITION. The named operations over memory, registers, call stack, framebuffer and key latch,
and the one way into a fault. -/

namespace Sys2Proof.Machine

/-- What a meaning answers. -/
abbrev Result := Host.Outcome State Fault Refusal

/-! ### Memory (spec/20_memory.md) -/

/-- What an address reads as until it is written: the glyph at 0x000–0x04F, else 0x00 (R49, R82). -/
def Memory.initial (rom : Vector Byte 80) (a : Nat) : Byte :=
  if h : a < 80 then rom[a] else 0

/-- The listed byte at an address. -/
def Memory.find : Memory → Nat → Option Byte
  | [], _ => none
  | (b, v) :: rest, a => if b = a then some v else Memory.find rest a

/-- The byte at an address. -/
def Memory.read (rom : Vector Byte 80) (m : Memory) (a : Nat) : Byte :=
  (Memory.find m a).getD (Memory.initial rom a)

/-- Lists a byte at its place, in a memory that does not list the address. -/
def Memory.insert : Memory → Nat → Byte → Memory
  | [], a, v => [(a, v)]
  | (b, w) :: rest, a, v =>
    if a < b then (a, v) :: (b, w) :: rest else (b, w) :: Memory.insert rest a v

/-- Unlists an address. -/
def Memory.erase (m : Memory) (a : Nat) : Memory :=
  m.filter fun c => c.1 != a

/-- Stores a byte, keeping the canonical form: the reset content of an address is never listed. -/
def Memory.write (rom : Vector Byte 80) (m : Memory) (a : Nat) (v : Byte) : Memory :=
  if v = Memory.initial rom a then Memory.erase m a
  else Memory.insert (Memory.erase m a) a v

/-- Stores bytes in increasing address order (R87, R90). -/
def Memory.writeBytes (rom : Vector Byte 80) (m : Memory) (a : Nat) : List Byte → Memory
  | [] => m
  | v :: vs => Memory.writeBytes rom (Memory.write rom m a v) (a + 1) vs

/-- The canonical form: addresses below 4096 and strictly rising, and no byte equal to its reset
content. -/
def Memory.wf (rom : Vector Byte 80) : Memory → Bool
  | [] => true
  | [(a, v)] => decide (a < 4096) && v != Memory.initial rom a
  | (a, v) :: (b, w) :: rest =>
    decide (a < b) && v != Memory.initial rom a && Memory.wf rom ((b, w) :: rest)

/-- MemRead(a, 1) of R11: no byte exists above 0xFFF. -/
def State.readByte (s : State) (a : Nat) : Option Byte :=
  if a ≤ 0xFFF then some (Memory.read s.cfg.glyphRom s.mem a) else none

/-- The check of R92 for the bytes `base .. base + m - 1`, in unbounded arithmetic. No byte, no
check (R141, n = 0). -/
def inRange (base : Word) (m : Nat) : Bool :=
  m == 0 || decide (base.toNat + m - 1 ≤ 0xFFF)

/-- Reads `m` bytes from `base` up, or none when the check of R92 fails. -/
def State.loadBytes (s : State) (base : Word) (m : Nat) : Option (List Byte) :=
  if inRange base m then
    some ((List.range m).map fun k => Memory.read s.cfg.glyphRom s.mem (base.toNat + k))
  else none

/-- Writes bytes from `base` up, or none, with nothing written, when the check of R92 fails. -/
def State.storeBytes (s : State) (base : Word) (vs : List Byte) : Option State :=
  if inRange base vs.length then
    some { s with mem := Memory.writeBytes s.cfg.glyphRom s.mem base.toNat vs }
  else none

/-! ### Registers (spec/10_state.md) -/

/-- V[x] (R10, R30). -/
def State.reg (s : State) (x : Nibble) : Byte := s.v[x.toNat]'x.isLt

/-- V[x] <- a. -/
def State.setReg (s : State) (x : Nibble) (a : Byte) : State :=
  { s with v := s.v.set x.toNat a x.isLt }

/-- V[0xF] <- the flag as 0 or 1 (R31, R40). -/
def State.setFlag (s : State) (b : Bool) : State :=
  s.setReg 0xF (if b then 1 else 0)

/-- V[k], V[k + 1], ... <- the bytes in order. A byte past VF has no register; none of the spec's
loads has one (R215: at most sixteen bytes, from V0). -/
def loadRegs (v : Vector Byte 16) (k : Nat) : List Byte → Vector Byte 16
  | [] => v
  | b :: bs => loadRegs (v.setIfInBounds k b) (k + 1) bs

/-- V0, V1, ... <- the bytes in order; the registers past them keep their values (R215). -/
def State.setRegs (s : State) (vs : List Byte) : State :=
  { s with v := loadRegs s.v 0 vs }

/-- I <- a. -/
def State.setI (s : State) (a : Word) : State := { s with i := a }

/-- DT <- a. -/
def State.setDt (s : State) (a : Byte) : State := { s with dt := a }

/-- ST <- a. -/
def State.setSt (s : State) (a : Byte) : State := { s with st := a }

/-- PC <- a: final, nothing is added (R13). -/
def State.setPc (s : State) (a : Word) : State := { s with pc := a }

/-- The default PC <- PC + 2 (R13, R35). -/
def State.advance (s : State) : State := s.setPc (s.pc + 2)

/-- PC <- PC + 4 when a skip's condition holds, else PC + 2 (R35, R154). -/
def State.skipIf (s : State) (b : Bool) : State :=
  s.setPc (if b then s.pc + 4 else s.pc + 2)

/-! ### Call stack (spec/10_state.md R38, R39) -/

/-- Whether the stack holds all the entries `STACK_DEPTH` allows. -/
def State.stackFull (s : State) : Bool :=
  match s.cfg.stackDepth with
  | some d => decide (d ≤ s.stack.length)
  | none => false

/-- push(a), on top of the stack, or none when it is full. -/
def State.push (s : State) (a : Word) : Option State :=
  if s.stackFull then none else some { s with stack := s.stack ++ [a] }

/-- pop(): the top of the stack and the stack without it, or none when it is empty. -/
def State.pop (s : State) : Option (Word × State) :=
  match s.stack.getLast? with
  | some a => some (a, { s with stack := s.stack.dropLast })
  | none => none

/-! ### Framebuffer (spec/10_state.md R43, spec/40_display.md) -/

/-- FB[y][x]. -/
def Framebuffer.pixel (fb : Framebuffer) (y : Fin 32) (x : Fin 64) : Bool := fb[y][x]

/-- FB[y][x] <- b. -/
def Framebuffer.setPixel (fb : Framebuffer) (y : Fin 32) (x : Fin 64) (b : Bool) : Framebuffer :=
  fb.set y (fb[y].set x b)

/-- Every pixel off (R140). -/
def Framebuffer.clear : Framebuffer := Vector.replicate 32 (Vector.replicate 64 false)

/-- The pixels one sprite row touches, left to right: bit 7 is column offset 0 (R143), and the
column wraps modulo 64 (R142). -/
def rowCells (y : Fin 32) (x0 : Nat) (b : Byte) : List (Fin 32 × Fin 64) :=
  ((List.range 8).filter fun c => b.getLsbD (7 - c)).map fun c => (y, Fin.ofNat 64 (x0 + c))

/-- The pixels a sprite touches, row by row; row r lies r rows below the start, modulo 32 (R142). -/
def spriteCells (y0 x0 : Nat) : List Byte → List (Fin 32 × Fin 64)
  | [] => []
  | b :: bs => rowCells (Fin.ofNat 32 y0) x0 b ++ spriteCells (y0 + 1) x0 bs

/-- The body of R141's loop at one touched pixel: note an erasure (R144) and toggle the pixel. -/
def togglePixel (acc : Framebuffer × Bool) (c : Fin 32 × Fin 64) : Framebuffer × Bool :=
  (acc.1.setPixel c.1 c.2 (!acc.1.pixel c.1 c.2), acc.2 || acc.1.pixel c.1 c.2)

/-- R141's loop: the framebuffer after the draw, and whether a pixel was erased. -/
def drawSprite (fb : Framebuffer) (y0 x0 : Nat) (rows : List Byte) : Framebuffer × Bool :=
  (spriteCells y0 x0 rows).foldl togglePixel (fb, false)

/-- FB[y][x] of a state. -/
def State.pixel (s : State) (y : Fin 32) (x : Fin 64) : Bool := Framebuffer.pixel s.fb y x

/-- FB <- fb. -/
def State.setFb (s : State) (fb : Framebuffer) : State := { s with fb := fb }

/-! ### Key latch and engine state (spec/10_state.md R44, R45) -/

/-- K[k]. -/
def State.key (s : State) (k : Nibble) : Bool := s.keys[k.toNat]'k.isLt

/-- K[k] <- b. -/
def State.setKey (s : State) (k : Nibble) (b : Bool) : State :=
  { s with keys := s.keys.set k.toNat b k.isLt }

/-- R235: enter WAIT_KEY for Vx. PC is not advanced. -/
def State.enterWait (s : State) (x : Nibble) : State :=
  { s with es := .waitKey, waitX := x }

/-- R236, after the latch update: V[wait_x] <- k, PC <- PC + 2, es <- RUN. -/
def State.completeWait (s : State) (k : Nibble) : State :=
  { (s.setReg s.waitX (k.setWidth 8)).advance with es := .run }

/-- R274: a quit halts and records its cause; nothing else changes. -/
def State.quit (s : State) : State :=
  { s with es := .halted, haltCause := .quit }

/-! ### Faults (spec/60_exceptions.md) -/

/-- R256: fault entry. PC is the faulting instruction's own address, and `w` its word. There is no
handler and no return from a fault (R258, R259). -/
def State.raiseFault (s : State) (code : FaultCode) (w : Word) : State :=
  { s with es := .halted, haltCause := .fault, faultCode := code, faultPc := s.pc, faultOp := w }

/-- `raise Fault(code)` as the end of an instruction: the fault is taken. -/
def raise (code : FaultCode) (w : Word) (s : State) : Result :=
  .next (s.raiseFault code w)

end Sys2Proof.Machine
end

