-- ==== Sys2Proof/Machine/Operands.lean ====
section
/-! DEFINITION. Operand forms: zero-extended immediates (spec/30_encoding.md R112), glyph addresses,
decimal digits, key indexes and the computed jump. -/

namespace Sys2Proof.Machine

/-- zext_16(nnn) (R112). -/
def zextAddr (nnn : Addr12) : Word := nnn.setWidth 16

/-- Bnnn's target: zext_16(V0) + zext_16(nnn), with no 12-bit wrap (spec/41_flow.md R158). -/
def indexedTarget (v0 : Byte) (nnn : Addr12) : Word := v0.setWidth 16 + zextAddr nnn

/-- The glyph address 5 × zext_16(a), with no mask (spec/43_index_memory.md R212). -/
def glyphAddr (a : Byte) : Word := 5 * a.setWidth 16

/-- The hundreds, tens and ones digits of a byte (R213). -/
def decimalDigits (a : Byte) : List Byte :=
  [BitVec.ofNat 8 (a.toNat / 100), BitVec.ofNat 8 (a.toNat / 10 % 10), BitVec.ofNat 8 (a.toNat % 10)]

/-- V0 .. V[x], inclusive of x (R214). -/
def State.regsUpTo (s : State) (x : Nibble) : List Byte :=
  (List.range (x.toNat + 1)).map fun k => s.reg (BitVec.ofNat 4 k)

/-- The key a byte names, or none above 0xF (spec/44_keys_timers.md R230). -/
def keyIndex (a : Byte) : Option Nibble :=
  if a.toNat > 0xF then none else some (a.setWidth 4)

/-- A sprite's start column: Vx mod 64 (spec/40_display.md R142). -/
def startColumn (a : Byte) : Nat := a.toNat % 64

/-- A sprite's start row: Vy mod 32 (R142). -/
def startRow (a : Byte) : Nat := a.toNat % 32

end Sys2Proof.Machine
end

