-- ==== Sys2Proof/Machine/Alu.lean ====
section
/-! DEFINITION. Register and ALU instructions (spec/42_alu.md). Byte arithmetic is modulo 256 and
unsigned (R192); no instruction here can fault (R193). -/

namespace Sys2Proof.Machine

/-- The end of an instruction that writes a result and no flag. -/
def writeResult (x : Nibble) (r : Byte) (s : State) : Result :=
  .next (s.setReg x r).advance

/-- The end of an instruction that writes a result and then its flag: the flag is written last, so
it is what VF ends holding when x = 0xF (spec/10_state.md R40, D12). -/
def writeResultFlag (x : Nibble) (r : Byte) (flag : Bool) (s : State) : Result :=
  .next ((s.setReg x r).setFlag flag).advance

/-- R180: V[x] <- nn. -/
def execLdImm (x : Nibble) (nn : Byte) (s : State) : Result :=
  writeResult x nn s

/-- R181: V[x] <- V[x] + nn, no flag. -/
def execAddImm (x : Nibble) (nn : Byte) (s : State) : Result :=
  writeResult x (s.reg x + nn) s

/-- R182: V[x] <- V[y]. -/
def execLdReg (x y : Nibble) (s : State) : Result :=
  writeResult x (s.reg y) s

/-- R183: V[x] <- V[x] | V[y], no flag. -/
def execOrReg (x y : Nibble) (s : State) : Result :=
  writeResult x (s.reg x ||| s.reg y) s

/-- R184: V[x] <- V[x] & V[y], no flag. -/
def execAndReg (x y : Nibble) (s : State) : Result :=
  writeResult x (s.reg x &&& s.reg y) s

/-- R185: V[x] <- V[x] ^ V[y], no flag. -/
def execXorReg (x y : Nibble) (s : State) : Result :=
  writeResult x (s.reg x ^^^ s.reg y) s

/-- R186: V[x] <- V[x] + V[y]; VF <- carry. -/
def execAddReg (x y : Nibble) (s : State) : Result :=
  writeResultFlag x (s.reg x + s.reg y) (carryFlag (s.reg x) (s.reg y)) s

/-- R187: V[x] <- V[x] - V[y]; VF <- not-borrow. -/
def execSub (x y : Nibble) (s : State) : Result :=
  writeResultFlag x (s.reg x - s.reg y) (notBorrowFlag (s.reg x) (s.reg y)) s

/-- R188: V[x] <- V[x] >> 1; VF <- the bit shifted out. Vy is not read. -/
def execShr (x _y : Nibble) (s : State) : Result :=
  writeResultFlag x (s.reg x >>> 1) (shiftRightFlag (s.reg x)) s

/-- R189: V[x] <- V[y] - V[x]; VF <- not-borrow of that subtraction. -/
def execSubn (x y : Nibble) (s : State) : Result :=
  writeResultFlag x (s.reg y - s.reg x) (notBorrowFlag (s.reg y) (s.reg x)) s

/-- R190: V[x] <- V[x] << 1; VF <- the bit shifted out. Vy is not read. -/
def execShl (x _y : Nibble) (s : State) : Result :=
  writeResultFlag x (s.reg x <<< 1) (shiftLeftFlag (s.reg x)) s

/-- R191: V[x] <- rand8 & nn, with the `rand` input sampled for this iteration (a free value, log
entry 1). -/
def execRnd (x : Nibble) (nn : Byte) (s : State) : Result :=
  writeResult x (s.rand &&& nn) s

end Sys2Proof.Machine
end

