-- ==== Sys2Proof/Syntax.lean ====
section
/-! DEFINITION. The instructions: one constructor per row of spec/opcode_table.json, in the table's
order (spec/30_encoding.md R113, R123). -/

namespace Sys2Proof

/-- Register indexes `x` and `y`, immediates `nn`, addresses `nnn` and row counts `n` are the fields
of R111. A nibble the decoder ignores (`q` of CLS and RET, `y` of SHR and SHL) is kept, so that the
word recorded in `fault_op` (R256) is the word itself (log entry 4). -/
inductive Instr where
  /-- 0x0?E0: R140. -/
  | cls (q : Nibble)
  /-- 0x0?EE: R150. -/
  | ret (q : Nibble)
  /-- 0x0nnn, any other word of group 0: R151. -/
  | sys (nnn : Addr12)
  /-- 0x1nnn: R152. -/
  | jp (nnn : Addr12)
  /-- 0x2nnn: R153. -/
  | call (nnn : Addr12)
  /-- 0x3xnn: R154. -/
  | seImm (x : Nibble) (nn : Byte)
  /-- 0x4xnn: R155. -/
  | sneImm (x : Nibble) (nn : Byte)
  /-- 0x5xy0: R156. -/
  | seReg (x y : Nibble)
  /-- 0x6xnn: R180. -/
  | ldImm (x : Nibble) (nn : Byte)
  /-- 0x7xnn: R181. -/
  | addImm (x : Nibble) (nn : Byte)
  /-- 0x8xy0: R182. -/
  | ldReg (x y : Nibble)
  /-- 0x8xy1: R183. -/
  | orReg (x y : Nibble)
  /-- 0x8xy2: R184. -/
  | andReg (x y : Nibble)
  /-- 0x8xy3: R185. -/
  | xorReg (x y : Nibble)
  /-- 0x8xy4: R186. -/
  | addReg (x y : Nibble)
  /-- 0x8xy5: R187. -/
  | sub (x y : Nibble)
  /-- 0x8xy6: R188. The y field is ignored. -/
  | shr (x y : Nibble)
  /-- 0x8xy7: R189. -/
  | subn (x y : Nibble)
  /-- 0x8xyE: R190. The y field is ignored. -/
  | shl (x y : Nibble)
  /-- 0x9xy0: R157. -/
  | sneReg (x y : Nibble)
  /-- 0xAnnn: R210. -/
  | ldI (nnn : Addr12)
  /-- 0xBnnn: R158. -/
  | jpV0 (nnn : Addr12)
  /-- 0xCxnn: R191. -/
  | rnd (x : Nibble) (nn : Byte)
  /-- 0xDxyn: R141. -/
  | drw (x y n : Nibble)
  /-- 0xEx9E: R230. -/
  | skp (x : Nibble)
  /-- 0xExA1: R231. -/
  | sknp (x : Nibble)
  /-- 0xFx07: R232. -/
  | ldVxDt (x : Nibble)
  /-- 0xFx0A: R235. -/
  | ldVxK (x : Nibble)
  /-- 0xFx15: R233. -/
  | ldDtVx (x : Nibble)
  /-- 0xFx18: R234. -/
  | ldStVx (x : Nibble)
  /-- 0xFx1E: R211. -/
  | addI (x : Nibble)
  /-- 0xFx29: R212. -/
  | ldF (x : Nibble)
  /-- 0xFx33: R213. -/
  | ldB (x : Nibble)
  /-- 0xFx55: R214. -/
  | ldMemVx (x : Nibble)
  /-- 0xFx65: R215. -/
  | ldVxMem (x : Nibble)
  deriving DecidableEq, Repr

end Sys2Proof
end

