-- ==== Sys2Proof/WellFormed.lean ====
section
/-! DEFINITION. Which terms of `Instr` an instruction word stands for (spec/30_encoding.md R114). -/

namespace Sys2Proof

/-- R114: whether the group-0 word with middle nibble `q` and low byte `nn` is CLS or RET: the low
byte alone decides, and with `STRICT_GROUP0` the middle nibble must be 0 too. -/
def isGroup0Instr (strict : Bool) (q : Nibble) (nn : Byte) : Bool :=
  (nn == 0xE0 || nn == 0xEE) && (!strict || q == 0)

/-- An instruction is well formed when some word decodes to it. Only group 0 can be ill formed: CLS
and RET with a middle nibble under `STRICT_GROUP0`, and SYS with the word of CLS or RET. -/
def Instr.wf (strict : Bool) : Instr → Bool
  | .cls q => !strict || q == 0
  | .ret q => !strict || q == 0
  | .sys nnn => !isGroup0Instr strict (nnn.extractLsb' 8 4) (nnn.extractLsb' 0 8)
  | .jp _ => true
  | .call _ => true
  | .seImm _ _ => true
  | .sneImm _ _ => true
  | .seReg _ _ => true
  | .ldImm _ _ => true
  | .addImm _ _ => true
  | .ldReg _ _ => true
  | .orReg _ _ => true
  | .andReg _ _ => true
  | .xorReg _ _ => true
  | .addReg _ _ => true
  | .sub _ _ => true
  | .shr _ _ => true
  | .subn _ _ => true
  | .shl _ _ => true
  | .sneReg _ _ => true
  | .ldI _ => true
  | .jpV0 _ => true
  | .rnd _ _ => true
  | .drw _ _ _ => true
  | .skp _ => true
  | .sknp _ => true
  | .ldVxDt _ => true
  | .ldVxK _ => true
  | .ldDtVx _ => true
  | .ldStVx _ => true
  | .addI _ => true
  | .ldF _ => true
  | .ldB _ => true
  | .ldMemVx _ => true
  | .ldVxMem _ => true

end Sys2Proof
end

