-- ==== Sys2Proof/Decode.lean ====
section
/-! DEFINITION. Decoding (spec/30_encoding.md R113–R119) and encoding (R111, R123). -/

namespace Sys2Proof

/-- Why bytes are no instruction. -/
inductive DecodeError where
  /-- Fewer than two bytes were given; the machine's own fetch always gives two (R88, R110). -/
  | truncated
  /-- A word of the `UNSUPPORTED` set of R119. -/
  | unsupported
  deriving DecidableEq, Repr

/-- The group nibble w[15:12] (R111). -/
def fieldGroup (w : Word) : Nibble := w.extractLsb' 12 4

/-- The register index x = w[11:8] (R111). -/
def fieldX (w : Word) : Nibble := w.extractLsb' 8 4

/-- The register index y = w[7:4] (R111). -/
def fieldY (w : Word) : Nibble := w.extractLsb' 4 4

/-- The count or secondary opcode n = w[3:0] (R111). -/
def fieldN (w : Word) : Nibble := w.extractLsb' 0 4

/-- The immediate or secondary opcode nn = w[7:0] (R111). -/
def fieldNN (w : Word) : Byte := w.extractLsb' 0 8

/-- The address nnn = w[11:0] (R111). -/
def fieldNNN (w : Word) : Addr12 := w.extractLsb' 0 12

/-- Group 0 (R114): CLS or RET by the low byte, under `STRICT_GROUP0` with middle nibble 0 only, else
the legacy call, which decodes as SYS and faults when executed. -/
def decodeGroup0 (strict : Bool) (w : Word) : Instr :=
  if strict = true ∧ fieldX w ≠ 0 then .sys (fieldNNN w)
  else
    match (fieldNN w).toNat with
    | 0xE0 => .cls (fieldX w)
    | 0xEE => .ret (fieldX w)
    | _ => .sys (fieldNNN w)

/-- Group 8 (R116): nine operations by the low nibble. -/
def decodeGroup8 (x y n : Nibble) : Except DecodeError Instr :=
  match n.toNat with
  | 0x0 => .ok (.ldReg x y)
  | 0x1 => .ok (.orReg x y)
  | 0x2 => .ok (.andReg x y)
  | 0x3 => .ok (.xorReg x y)
  | 0x4 => .ok (.addReg x y)
  | 0x5 => .ok (.sub x y)
  | 0x6 => .ok (.shr x y)
  | 0x7 => .ok (.subn x y)
  | 0xE => .ok (.shl x y)
  | _ => .error .unsupported

/-- Group E (R117): two skips by the low byte. -/
def decodeGroupE (x : Nibble) (nn : Byte) : Except DecodeError Instr :=
  match nn.toNat with
  | 0x9E => .ok (.skp x)
  | 0xA1 => .ok (.sknp x)
  | _ => .error .unsupported

/-- Group F (R118): nine instructions by the low byte. -/
def decodeGroupF (x : Nibble) (nn : Byte) : Except DecodeError Instr :=
  match nn.toNat with
  | 0x07 => .ok (.ldVxDt x)
  | 0x0A => .ok (.ldVxK x)
  | 0x15 => .ok (.ldDtVx x)
  | 0x18 => .ok (.ldStVx x)
  | 0x1E => .ok (.addI x)
  | 0x29 => .ok (.ldF x)
  | 0x33 => .ok (.ldB x)
  | 0x55 => .ok (.ldMemVx x)
  | 0x65 => .ok (.ldVxMem x)
  | _ => .error .unsupported

/-- Groups 5 and 9 (R115): one instruction each, at low nibble 0. -/
def decodeLowZero (n : Nibble) (i : Instr) : Except DecodeError Instr :=
  if n = 0 then .ok i else .error .unsupported

/-- Decode(w): the dispatch table of R113, total on every word (R121). -/
def decode (strict : Bool) (w : Word) : Except DecodeError Instr :=
  match (fieldGroup w).toNat with
  | 0x0 => .ok (decodeGroup0 strict w)
  | 0x1 => .ok (.jp (fieldNNN w))
  | 0x2 => .ok (.call (fieldNNN w))
  | 0x3 => .ok (.seImm (fieldX w) (fieldNN w))
  | 0x4 => .ok (.sneImm (fieldX w) (fieldNN w))
  | 0x5 => decodeLowZero (fieldN w) (.seReg (fieldX w) (fieldY w))
  | 0x6 => .ok (.ldImm (fieldX w) (fieldNN w))
  | 0x7 => .ok (.addImm (fieldX w) (fieldNN w))
  | 0x8 => decodeGroup8 (fieldX w) (fieldY w) (fieldN w)
  | 0x9 => decodeLowZero (fieldN w) (.sneReg (fieldX w) (fieldY w))
  | 0xA => .ok (.ldI (fieldNNN w))
  | 0xB => .ok (.jpV0 (fieldNNN w))
  | 0xC => .ok (.rnd (fieldX w) (fieldNN w))
  | 0xD => .ok (.drw (fieldX w) (fieldY w) (fieldN w))
  | 0xE => decodeGroupE (fieldX w) (fieldNN w)
  | _ => decodeGroupF (fieldX w) (fieldNN w)

/-- The word of two consecutive bytes: the one at the lower address supplies bits 15:8 (R86). -/
def wordOfBytes (hi lo : Byte) : Word := hi ++ lo

/-- Decodes the instruction at the head of a list of bytes, with the bytes after it (R110: always
two bytes). -/
def decodeBytes (strict : Bool) : List Byte → Except DecodeError (Instr × List Byte)
  | hi :: lo :: rest =>
    match decode strict (wordOfBytes hi lo) with
    | .ok i => .ok (i, rest)
    | .error e => .error e
  | [] => .error .truncated
  | [_] => .error .truncated

/-- The word with group `g`, index `x` and low byte `nn` (layouts Gxnn and Gx?? of R111). -/
def wordXNN (g x : Nibble) (nn : Byte) : Word := g ++ x ++ nn

/-- The word with group `g`, indexes `x`, `y` and low nibble `n` (layouts Gxyn and Gxy? of R111). -/
def wordXYN (g x y n : Nibble) : Word := g ++ x ++ y ++ n

/-- The word with group `g` and address `nnn` (layout Gnnn of R111). -/
def wordNNN (g : Nibble) (nnn : Addr12) : Word := g ++ nnn

/-- The word of an instruction, from the patterns of R123. -/
def encode : Instr → Word
  | .cls q => wordXNN 0x0 q 0xE0
  | .ret q => wordXNN 0x0 q 0xEE
  | .sys nnn => wordNNN 0x0 nnn
  | .jp nnn => wordNNN 0x1 nnn
  | .call nnn => wordNNN 0x2 nnn
  | .seImm x nn => wordXNN 0x3 x nn
  | .sneImm x nn => wordXNN 0x4 x nn
  | .seReg x y => wordXYN 0x5 x y 0x0
  | .ldImm x nn => wordXNN 0x6 x nn
  | .addImm x nn => wordXNN 0x7 x nn
  | .ldReg x y => wordXYN 0x8 x y 0x0
  | .orReg x y => wordXYN 0x8 x y 0x1
  | .andReg x y => wordXYN 0x8 x y 0x2
  | .xorReg x y => wordXYN 0x8 x y 0x3
  | .addReg x y => wordXYN 0x8 x y 0x4
  | .sub x y => wordXYN 0x8 x y 0x5
  | .shr x y => wordXYN 0x8 x y 0x6
  | .subn x y => wordXYN 0x8 x y 0x7
  | .shl x y => wordXYN 0x8 x y 0xE
  | .sneReg x y => wordXYN 0x9 x y 0x0
  | .ldI nnn => wordNNN 0xA nnn
  | .jpV0 nnn => wordNNN 0xB nnn
  | .rnd x nn => wordXNN 0xC x nn
  | .drw x y n => wordXYN 0xD x y n
  | .skp x => wordXNN 0xE x 0x9E
  | .sknp x => wordXNN 0xE x 0xA1
  | .ldVxDt x => wordXNN 0xF x 0x07
  | .ldVxK x => wordXNN 0xF x 0x0A
  | .ldDtVx x => wordXNN 0xF x 0x15
  | .ldStVx x => wordXNN 0xF x 0x18
  | .addI x => wordXNN 0xF x 0x1E
  | .ldF x => wordXNN 0xF x 0x29
  | .ldB x => wordXNN 0xF x 0x33
  | .ldMemVx x => wordXNN 0xF x 0x55
  | .ldVxMem x => wordXNN 0xF x 0x65

/-- The table's numbering of a row's bits as a word: bit 0 is the least significant bit of the one
16-bit word, and every bit from `nbits` up is 0. -/
def tableWord (nbits w : Nat) : Word := BitVec.ofNat 16 (w % 2 ^ nbits)

/-- The instruction the decoder reads, with the default `STRICT_GROUP0`, from the word laid out as
memory holds it, high byte first (R86). -/
def decodeTableWord (nbits w : Nat) : Option Instr :=
  let word := tableWord nbits w
  match decodeBytes false [word.extractLsb' 8 8, word.extractLsb' 0 8] with
  | .ok (i, _) => some i
  | .error _ => none

end Sys2Proof
end

