-- ==== Sys2Proof/Machine/Display.lean ====
section
/-! DEFINITION. Display instructions (spec/40_display.md). -/

namespace Sys2Proof.Machine

/-- R140: every pixel off. -/
def execCls (_q : Nibble) (s : State) : Result :=
  .next (s.setFb Framebuffer.clear).advance

/-- R141: XOR the n-row sprite at I into the framebuffer at (Vx mod 64, Vy mod 32); VF <- whether a
pixel was erased. The draw never waits (D30). With n = 0 nothing is read or drawn and VF <- 0. -/
def execDrw (x y n : Nibble) (s : State) : Result :=
  match s.loadBytes s.i n.toNat with
  | none => raise .dataOutOfRange (encode (.drw x y n)) s
  | some rows =>
    let drawn := drawSprite s.fb (startRow (s.reg y)) (startColumn (s.reg x)) rows
    .next ((s.setFb drawn.1).setFlag drawn.2).advance

end Sys2Proof.Machine
end

