-- ==== Sys2Proof/Machine/Flow.lean ====
section
/-! DEFINITION. Control transfer (spec/41_flow.md). A transfer takes effect at the next fetch, and no
target needs alignment (R159). -/

namespace Sys2Proof.Machine

/-- R150: PC <- pop(); STACK_UNDERFLOW on an empty stack. -/
def execRet (q : Nibble) (s : State) : Result :=
  match s.pop with
  | none => raise .stackUnderflow (encode (.ret q)) s
  | some (a, s') => .next (s'.setPc a)

/-- R151: the legacy machine call always takes the fault LEGACY_SYS. -/
def execSys (nnn : Addr12) (s : State) : Result :=
  raise .legacySys (encode (.sys nnn)) s

/-- R152: PC <- nnn. -/
def execJp (nnn : Addr12) (s : State) : Result :=
  .next (s.setPc (zextAddr nnn))

/-- R153: push PC + 2, then PC <- nnn; STACK_OVERFLOW on a full stack. -/
def execCall (nnn : Addr12) (s : State) : Result :=
  match s.push (s.pc + 2) with
  | none => raise .stackOverflow (encode (.call nnn)) s
  | some s' => .next (s'.setPc (zextAddr nnn))

/-- R154: skip when Vx = nn. -/
def execSeImm (x : Nibble) (nn : Byte) (s : State) : Result :=
  .next (s.skipIf (s.reg x == nn))

/-- R155: skip when Vx ≠ nn. -/
def execSneImm (x : Nibble) (nn : Byte) (s : State) : Result :=
  .next (s.skipIf (s.reg x != nn))

/-- R156: skip when Vx = Vy. -/
def execSeReg (x y : Nibble) (s : State) : Result :=
  .next (s.skipIf (s.reg x == s.reg y))

/-- R157: skip when Vx ≠ Vy. -/
def execSneReg (x y : Nibble) (s : State) : Result :=
  .next (s.skipIf (s.reg x != s.reg y))

/-- R158: PC <- V0 + nnn, always V0. -/
def execJpV0 (nnn : Addr12) (s : State) : Result :=
  .next (s.setPc (indexedTarget (s.reg 0) nnn))

end Sys2Proof.Machine
end

