-- ==== Sys2Proof/Machine/Index.lean ====
section
/-! DEFINITION. Index register and memory instructions (spec/43_index_memory.md). No access changes I
(R216). -/

namespace Sys2Proof.Machine

/-- R210: I <- nnn. -/
def execLdI (nnn : Addr12) (s : State) : Result :=
  .next (s.setI (zextAddr nnn)).advance

/-- R211: I <- I + Vx modulo 2^16; VF <- whether the exact sum exceeds 0xFFF, written last. -/
def execAddI (x : Nibble) (s : State) : Result :=
  .next ((s.setI (s.i + (s.reg x).setWidth 16)).setFlag (addressFlag s.i (s.reg x))).advance

/-- R212: I <- 5 × Vx. -/
def execLdF (x : Nibble) (s : State) : Result :=
  .next (s.setI (glyphAddr (s.reg x))).advance

/-- R213: the decimal digits of Vx to memory at I, I + 1, I + 2. -/
def execLdB (x : Nibble) (s : State) : Result :=
  match s.storeBytes s.i (decimalDigits (s.reg x)) with
  | none => raise .dataOutOfRange (encode (.ldB x)) s
  | some s' => .next s'.advance

/-- R214: V0 .. Vx to memory from I up. -/
def execLdMemVx (x : Nibble) (s : State) : Result :=
  match s.storeBytes s.i (s.regsUpTo x) with
  | none => raise .dataOutOfRange (encode (.ldMemVx x)) s
  | some s' => .next s'.advance

/-- R215: V0 .. Vx from memory from I up. -/
def execLdVxMem (x : Nibble) (s : State) : Result :=
  match s.loadBytes s.i (x.toNat + 1) with
  | none => raise .dataOutOfRange (encode (.ldVxMem x)) s
  | some vs => .next (s.setRegs vs).advance

end Sys2Proof.Machine
end

