-- ==== Sys2Proof/Machine/Keys.lean ====
section
/-! DEFINITION. Keypad and timer instructions (spec/44_keys_timers.md). -/

namespace Sys2Proof.Machine

/-- R230: skip when the key whose index is in Vx is down; KEY_OUT_OF_RANGE above 0xF. -/
def execSkp (x : Nibble) (s : State) : Result :=
  match keyIndex (s.reg x) with
  | none => raise .keyOutOfRange (encode (.skp x)) s
  | some k => .next (s.skipIf (s.key k))

/-- R231: skip when the key whose index is in Vx is up; KEY_OUT_OF_RANGE above 0xF. -/
def execSknp (x : Nibble) (s : State) : Result :=
  match keyIndex (s.reg x) with
  | none => raise .keyOutOfRange (encode (.sknp x)) s
  | some k => .next (s.skipIf (!s.key k))

/-- R232: V[x] <- DT. -/
def execLdVxDt (x : Nibble) (s : State) : Result :=
  .next (s.setReg x s.dt).advance

/-- R235: wait for a key press for Vx. PC is not advanced; a later poll completes the wait (R236). -/
def execLdVxK (x : Nibble) (s : State) : Result :=
  .next (s.enterWait x)

/-- R233: DT <- V[x]. -/
def execLdDtVx (x : Nibble) (s : State) : Result :=
  .next (s.setDt (s.reg x)).advance

/-- R234: ST <- V[x]. -/
def execLdStVx (x : Nibble) (s : State) : Result :=
  .next (s.setSt (s.reg x)).advance

end Sys2Proof.Machine
end

