-- ==== Sys2Proof/Machine/Schedule.lean ====
section
/-! DEFINITION. The inputs of one iteration and what they do before an instruction executes
(spec/60_exceptions.md R265–R274). -/

namespace Sys2Proof.Machine

/-- The inputs of the coming iteration or poll (R60): the first of those listed, else free. -/
def State.nextInput (s : State) : Input :=
  match s.inputs with
  | [] => Config.freeInput s.drawn
  | inp :: _ => inp

/-- Samples the inputs once (R60): they are used up, and the `rand` port takes this iteration's
byte. -/
def State.sample (s : State) : State :=
  { s with inputs := s.inputs.tail, drawn := s.drawn + 1, rand := s.nextInput.rand }

/-- `KeyDown(k)` (R267, R272): K[k] <- true; in WAIT_KEY it completes the wait too (R236). -/
def State.keyDown (s : State) (k : Nibble) : State :=
  if s.es = .waitKey then (s.setKey k true).completeWait k else s.setKey k true

/-- `KeyUp(k)` (R267): K[k] <- false. -/
def State.keyUp (s : State) (k : Nibble) : State := s.setKey k false

/-- The events in order. A `Quit` halts where it stands, and later events are discarded (R270,
R272, R274). -/
def State.applyEvents (s : State) : List Event → State
  | [] => s
  | .keyDown k :: rest => (s.keyDown k).applyEvents rest
  | .keyUp k :: rest => (s.keyUp k).applyEvents rest
  | .quit :: _ => s.quit

/-- A timer counts down by 1 to a floor of 0 (R265). -/
def countDown (a : Byte) : Byte := if a = 0 then 0 else a - 1

/-- The tick, when this iteration has one: both timers count down, each on its own (R265). -/
def State.applyTick (s : State) (tick : Bool) : State :=
  if tick then { s with dt := countDown s.dt, st := countDown s.st } else s

/-- What an iteration or poll does before any instruction: sample the inputs, apply the events, then
the tick, unless a quit has halted the engine (R270, R272). -/
def State.applyInputs (s : State) : State :=
  let s' := s.sample.applyEvents s.nextInput.events
  if s'.es = .halted then s' else s'.applyTick s.nextInput.tick

end Sys2Proof.Machine
end

