-- ==== Sys2Proof/Machine/Execute.lean ====
section
/-! DEFINITION. Fetch, `execute_one` and the Run Loop's iteration (spec/20_memory.md R88,
spec/30_encoding.md R121, spec/60_exceptions.md R270–R273). -/

namespace Sys2Proof.Machine

/-- Fetch(PC): the word at PC, PC + 1, at any alignment, or none when PC > 0xFFE (R88, R89). -/
def State.fetch (s : State) : Option Word :=
  if s.pc.toNat ≤ 0xFFE then
    some (wordOfBytes (Memory.read s.cfg.glyphRom s.mem s.pc.toNat)
      (Memory.read s.cfg.glyphRom s.mem (s.pc.toNat + 1)))
  else none

/-- execute_one (R121), with the faults in the order of R260: fetch, decode, then the
instruction's own check. A fetch fault records 0x0000 as its word (R254). -/
def executeOne (s : State) : Result :=
  match s.fetch with
  | none => raise .fetchOutOfRange 0x0000 s
  | some w =>
    match decode s.cfg.strictGroup0 w with
    | .error _ => raise .unsupported w s
    | .ok i => exec i s

/-- One iteration in RUN (R270), one poll in WAIT_KEY (R272), or nothing in HALTED, where the inputs
are not even sampled (R273). -/
def iteration (s : State) : Result :=
  match s.es with
  | .halted => .next s
  | .waitKey => .next s.applyInputs
  | .run =>
    let s' := s.applyInputs
    if s'.es = .halted then .next s' else executeOne s'

/-- An iteration's input with no event and no tick, its random byte still free. -/
def quietInput (n : Nat) : Input :=
  { events := [], tick := false, rand := (Config.freeInput n).rand }

/-- The state with a word stored where the next iteration fetches, that iteration made one that
executes an instruction: RUN, PC in fetch range, no quit among its events (log entry 2). -/
def State.placeWord (s : State) (w : Word) : State :=
  let pc : Word := if s.pc.toNat ≤ 0xFFE then s.pc else 0x200
  { s with
    es := .run
    pc := pc
    mem := Memory.writeBytes s.cfg.glyphRom s.mem pc.toNat
      [w.extractLsb' 8 8, w.extractLsb' 0 8]
    inputs := quietInput s.drawn :: s.inputs }

end Sys2Proof.Machine
end

