-- ==== Sys2Proof/Machine/Step.lean ====
section
/-! DEFINITION. One step of the machine: one iteration of the Run Loop or one poll of the key wait. -/

namespace Sys2Proof.Machine

/-- One step (spec/60_exceptions.md R270, R272, R273). -/
def step (s : State) : Host.Outcome State Fault Refusal := iteration s

/-- The state with the table's instruction `w` stored where the next step fetches (log entry 2). -/
def State.withFetchWord (s : State) (nbits w : Nat) : State := s.placeWord (tableWord nbits w)

end Sys2Proof.Machine
end

