-- ==== Sys2Proof/Machine/Load.lean ====
section
/-! DEFINITION. The load port (spec/10_state.md R64, spec/70_reset_and_hazards.md R290, R293): what the
host does before the first iteration. No step does it. -/

namespace Sys2Proof.Machine

/-- The machine constructed for a program image: the reset state with the image at 0x200, or, for an
image over 3584 bytes, a halted machine that executes nothing. What else a failed load leaves is
the reset state (log entry 5). -/
def State.load (p : Params) (image : List Byte) : State :=
  if image.length > 3584 then
    { State.resetWith p with es := .halted, haltCause := .loadError }
  else
    { State.resetWith p with mem := Memory.writeBytes p.glyphRom [] 0x200 image }

end Sys2Proof.Machine
end

