-- ==== Sys2Proof/Machine/Ports.lean ====
section
/-! DEFINITION. The output ports (spec/10_state.md R61–R63): functions of the state, read between
iterations. -/

namespace Sys2Proof.Machine

/-- The number of a fault code (spec/60_exceptions.md R250). -/
def FaultCode.code : FaultCode → BitVec 4
  | .none => 0
  | .unsupported => 1
  | .legacySys => 2
  | .stackUnderflow => 3
  | .stackOverflow => 4
  | .fetchOutOfRange => 5
  | .dataOutOfRange => 6
  | .keyOutOfRange => 7

/-- `fb_out` (R61): the grid FB. -/
def State.fbOut (s : State) : Framebuffer := s.fb

/-- `sound_on` (R62): ST > 0 and not HALTED. -/
def State.soundOn (s : State) : Bool := decide (s.st.toNat > 0) && s.es != .halted

/-- The status output (R63). -/
structure Status where
  es : EngineState
  haltCause : HaltCause
  faultCode : BitVec 4
  faultPc : Word
  faultOp : Word
  deriving DecidableEq, Repr

/-- The status output of a state (R63). -/
def State.status (s : State) : Status where
  es := s.es
  haltCause := s.haltCause
  faultCode := s.faultCode.code
  faultPc := s.faultPc
  faultOp := s.faultOp

end Sys2Proof.Machine
end

