-- ==== Sys2Proof/Safety.lean ====
section
/-! DEFINITION. The invariants of the machine, and the terms the statements use. -/

namespace Sys2Proof.Machine

/-- The memory is in its canonical form (log entry 7). -/
def State.memOk (s : State) : Bool := Memory.wf s.cfg.glyphRom s.mem

/-- The stack holds at most `STACK_DEPTH` entries (spec/10_state.md R38). -/
def State.stackOk (s : State) : Bool :=
  match s.cfg.stackDepth with
  | some d => decide (s.stack.length ≤ d)
  | none => true

/-- PC is at most 0x10FE (spec/10_state.md R35), a return address at most 0x1000, and the address of
a waiting Fx0A can be fetched. -/
def State.pcOk (s : State) : Bool :=
  decide (s.pc.toNat ≤ 0x10FE) && decide (s.es = .waitKey → s.pc.toNat ≤ 0xFFE) &&
    s.stack.all fun a => decide (a.toNat ≤ 0x1000)

/-- The fault record says why the engine is halted (spec/10_state.md R45, R46): HALTED exactly with
a cause, a code exactly for a fault, and no address or word without one. After a fault, PC is still
the faulting instruction's address (spec/60_exceptions.md R256). -/
def State.recordOk (s : State) : Bool :=
  decide (s.es = .halted ↔ s.haltCause ≠ .none) &&
    decide (s.faultCode ≠ .none ↔ s.haltCause = .fault) &&
    decide (if s.haltCause = .fault then s.faultPc = s.pc else s.faultPc = 0 ∧ s.faultOp = 0)

/-! ### Frames and readings -/

/-- From `s` to `t` only V registers of the list, and PC by 2, have changed. -/
def RegFrame (s t : State) (xs : List Nibble) : Prop :=
  (∀ y, y ∉ xs → t.reg y = s.reg y) ∧ t = { s with v := t.v, pc := s.pc + 2 }

/-- Whether a key is down after events that start with it as `b` (spec/60_exceptions.md R267): the
last event of that key decides, and nothing after a quit counts (R270). -/
def keyAfter (k : Nibble) (b : Bool) (evs : List Event) : Bool :=
  (evs.takeWhile (· ≠ .quit)).foldl
    (fun d ev => if ev = .keyDown k then true else if ev = .keyUp k then false else d) b

/-- A timer's value after the tick input (spec/60_exceptions.md R265), as a number. -/
def timerAfter (tick : Bool) (a : Byte) : Nat := if tick then a.toNat - 1 else a.toNat

/-- In RUN with no quit delivered, the next step takes FETCH_OUT_OF_RANGE at PC. -/
def NextFetchFaults (s : State) : Prop :=
  s.es = .run → Event.quit ∉ s.nextInput.events →
    ∃ t, step s = .next t ∧ t.es = .halted ∧ t.haltCause = .fault ∧
      t.faultCode = .fetchOutOfRange ∧ t.faultPc = s.pc ∧ t.faultOp = 0x0000

/-- The sprite DRW Vx, Vy, n draws in `s` has a 1 bit at that pixel (spec/40_display.md R142, R143):
row r of the sprite is the byte at I + r, its bit 7 the leftmost column. -/
def SpriteCovers (s : State) (x y n : Nibble) (row : Fin 32) (col : Fin 64) : Prop :=
  ∃ r c b, r < n.toNat ∧ c < 8 ∧ s.readByte (s.i.toNat + r) = some b ∧
    b.getLsbD (7 - c) = true ∧ row.val = ((s.reg y).toNat % 32 + r) % 32 ∧
    col.val = ((s.reg x).toNat % 64 + c) % 64

/-- Which V registers the execution of an instruction may write (spec/10_state.md R32). Fx0A's own
register is written by the poll that completes its wait (spec/44_keys_timers.md R236), so not here. -/
def writesReg : Instr → Nibble → Bool
  | .cls _, _ => false
  | .ret _, _ => false
  | .sys _, _ => false
  | .jp _, _ => false
  | .call _, _ => false
  | .seImm _ _, _ => false
  | .sneImm _ _, _ => false
  | .seReg _ _, _ => false
  | .ldImm x _, k => k == x
  | .addImm x _, k => k == x
  | .ldReg x _, k => k == x
  | .orReg x _, k => k == x
  | .andReg x _, k => k == x
  | .xorReg x _, k => k == x
  | .addReg x _, k => k == x || k == 0xF
  | .sub x _, k => k == x || k == 0xF
  | .shr x _, k => k == x || k == 0xF
  | .subn x _, k => k == x || k == 0xF
  | .shl x _, k => k == x || k == 0xF
  | .sneReg _ _, _ => false
  | .ldI _, _ => false
  | .jpV0 _, _ => false
  | .rnd x _, k => k == x
  | .drw _ _ _, k => k == 0xF
  | .skp _, _ => false
  | .sknp _, _ => false
  | .ldVxDt x, k => k == x
  | .ldVxK _, _ => false
  | .ldDtVx _, _ => false
  | .ldStVx _, _ => false
  | .addI _, k => k == 0xF
  | .ldF _, _ => false
  | .ldB _, _ => false
  | .ldMemVx _, _ => false
  | .ldVxMem x, k => decide (k.toNat ≤ x.toNat)

end Sys2Proof.Machine
end

