-- ==== Sys2Proof/Certificates/Slice0/Obligations.lean ====
section
/-! DEFINITION. The statements for the provers. Where a docstring says "the spec's decision D<n>", the
clause rests on spec/92_eei_decisions.md and not on the source behind the spec. A statement about the
`rand` port, the events or the tick holds for every value of them (log entry 1). -/

open Sys2Proof Sys2Proof.Machine

/-! ### Encoding -/

/-- Decoding the word of a well-formed instruction gives the instruction back, every operand at every
value, under either value of STRICT_GROUP0 (spec/30_encoding.md sections 1, 2 and 4; the parameter is
the spec's decision D10). -/
def Obligations.DecodeOfEncode : Prop :=
  ∀ (strict : Bool) (i : Instr), i.wf strict = true → decode strict (encode i) = .ok i

/-- A word that decodes is the word of its instruction, and that instruction is well formed
(spec/30_encoding.md sections 1, 2 and 4). That it is the very word, and not another word of the same
CLS, RET, SHR or SHL, is the model's choice: the constructors keep the nibble the decoder ignores (log
entry 4). Group 0's middle nibble is the spec's decision D10, the low nibble of groups 5 and 9 its
decision D11. -/
def Obligations.EncodeOfDecode : Prop :=
  ∀ (strict : Bool) (w : Word) (i : Instr),
    decode strict w = .ok i → encode i = w ∧ i.wf strict = true

/-- The UNSUPPORTED words are exactly those of the illegal space (spec/30_encoding.md section 2; that
groups 5 and 9 need a low nibble 0 is the spec's decision D11). -/
def Obligations.UnsupportedWords : Prop :=
  ∀ (strict : Bool) (w : Word),
    decode strict w = .error .unsupported ↔
      (w.toNat / 4096 = 5 ∨ w.toNat / 4096 = 9) ∧ w.toNat % 16 ≠ 0 ∨
      w.toNat / 4096 = 8 ∧ w.toNat % 16 ∈ [8, 9, 10, 11, 12, 13, 15] ∨
      w.toNat / 4096 = 14 ∧ w.toNat % 256 ∉ [0x9E, 0xA1] ∨
      w.toNat / 4096 = 15 ∧
        w.toNat % 256 ∉ [0x07, 0x0A, 0x15, 0x18, 0x1E, 0x29, 0x33, 0x55, 0x65]

/-- Group 0: CLS and RET by the low byte, and under STRICT_GROUP0 only with middle nibble 0; every
other word is SYS (spec/30_encoding.md section 2; the spec's decision D10). -/
def Obligations.GroupZeroWords : Prop :=
  ∀ (strict : Bool) (q : Nibble) (nn : Byte),
    (nn = 0xE0 → (strict = false ∨ q = 0) → decode strict (0x0#4 ++ q ++ nn) = .ok (.cls q)) ∧
    (nn = 0xEE → (strict = false ∨ q = 0) → decode strict (0x0#4 ++ q ++ nn) = .ok (.ret q)) ∧
    ((nn ≠ 0xE0 ∧ nn ≠ 0xEE ∨ strict = true ∧ q ≠ 0) →
      decode strict (0x0#4 ++ q ++ nn) = .ok (.sys (q ++ nn)))

/-- Words of the spec's decode vectors (spec/95_test_vectors.md section 2) decode as it says. -/
def Obligations.SampleWordsDecode : Prop :=
  decode false 0x00E0 = .ok (.cls 0) ∧
  decode false 0x0FEE = .ok (.ret 0xF) ∧
  decode true 0x0FEE = .ok (.sys 0xFEE) ∧
  decode false 0x0123 = .ok (.sys 0x123) ∧
  decode false 0x5AB0 = .ok (.seReg 0xA 0xB) ∧
  decode false 0x5AB1 = .error .unsupported ∧
  decode false 0x8AB7 = .ok (.subn 0xA 0xB) ∧
  decode false 0x8ABE = .ok (.shl 0xA 0xB) ∧
  decode false 0xB123 = .ok (.jpV0 0x123) ∧
  decode false 0xE19E = .ok (.skp 0x1) ∧
  decode false 0xF165 = .ok (.ldVxMem 0x1)

/-- The word of two bytes has the first, at the lower address, as its high byte (spec/20_memory.md
section 3; the order is the spec's decision D1). -/
def Obligations.BytesDecodeHighByteFirst : Prop :=
  ∀ (strict : Bool) (hi lo : Byte) (rest : List Byte) (i : Instr),
    decode strict (BitVec.ofNat 16 (256 * hi.toNat + lo.toNat)) = .ok i →
    decodeBytes strict (hi :: lo :: rest) = .ok (i, rest)

/-! ### One step -/

/-- In RUN, with no quit among the events, when the two bytes at PC decode to an instruction, the
step is that instruction, executed on the state after the iteration's inputs. What the inputs do is
`RunInputsTouchLatchAndTimers`: they touch neither PC, memory, V nor I. -/
def Obligations.StepRunsDecodedInstruction : Prop :=
  ∀ (s : State) (hi lo : Byte) (i : Instr),
    s.es = .run → Event.quit ∉ s.nextInput.events →
    s.readByte s.pc.toNat = some hi → s.readByte (s.pc.toNat + 1) = some lo →
    decodeBytes s.cfg.strictGroup0 [hi, lo] = .ok (i, []) →
    step s = exec i s.applyInputs

/-- In RUN, the inputs of an iteration without a quit change the key latch by its events in order and
count the timers down by its tick; the sampled input is used up and its random byte stands at the
`rand` port; nothing else changes. -/
def Obligations.RunInputsTouchLatchAndTimers : Prop :=
  ∀ s : State, s.es = .run → Event.quit ∉ s.nextInput.events →
    s.applyInputs =
      { s with
        keys := s.applyInputs.keys
        dt := s.applyInputs.dt
        st := s.applyInputs.st
        inputs := s.inputs.tail
        drawn := s.drawn + 1
        rand := s.nextInput.rand } ∧
    (∀ k, s.applyInputs.key k = keyAfter k (s.key k) s.nextInput.events) ∧
    s.applyInputs.dt.toNat = timerAfter s.nextInput.tick s.dt ∧
    s.applyInputs.st.toNat = timerAfter s.nextInput.tick s.st

/-- A tick takes 1 from each timer that is not 0 and leaves a timer at 0 alone, each on its own;
nothing else changes. -/
def Obligations.TickCountsTimersDown : Prop :=
  ∀ s : State,
    s.applyTick true = { s with dt := (s.applyTick true).dt, st := (s.applyTick true).st } ∧
    (s.dt ≠ 0 → (s.applyTick true).dt.toNat + 1 = s.dt.toNat) ∧
    (s.dt = 0 → (s.applyTick true).dt = 0) ∧
    (s.st ≠ 0 → (s.applyTick true).st.toNat + 1 = s.st.toNat) ∧
    (s.st = 0 → (s.applyTick true).st = 0) ∧
    s.applyTick false = s

/-- A quit halts where it stands among the events: the key events before it have their effect, those
after it, the tick and the instruction have none. In WAIT_KEY this is said of a quit that no
key-down precedes: V and PC stay as they are (spec/60_exceptions.md section 7, the spec's decision D20). -/
def Obligations.QuitHaltsAtOnce : Prop :=
  ∀ (s : State) (before after : List Event),
    s.es ≠ .halted → s.nextInput.events = before ++ .quit :: after → Event.quit ∉ before →
    (s.es = .waitKey → ∀ k, Event.keyDown k ∉ before) →
    ∃ t, step s = .next t ∧
      t = { s with
        keys := t.keys
        es := .halted
        haltCause := .quit
        inputs := s.inputs.tail
        drawn := s.drawn + 1
        rand := s.nextInput.rand } ∧
      ∀ k, t.key k = keyAfter k (s.key k) before

/-- A poll in WAIT_KEY without a key-down or a quit executes nothing and stays in WAIT_KEY at the same
PC; key-ups clear their keys and the tick counts the timers down (spec/44_keys_timers.md, the spec's
decisions D21 and D22). -/
def Obligations.PollWithoutKeyDownWaitsOn : Prop :=
  ∀ s : State, s.es = .waitKey → Event.quit ∉ s.nextInput.events →
    (∀ k, Event.keyDown k ∉ s.nextInput.events) →
    ∃ t, step s = .next t ∧
      t = { s with
        keys := t.keys
        dt := t.dt
        st := t.st
        inputs := s.inputs.tail
        drawn := s.drawn + 1
        rand := s.nextInput.rand } ∧
      (∀ k, t.key k = keyAfter k (s.key k) s.nextInput.events) ∧
      t.dt.toNat = timerAfter s.nextInput.tick s.dt ∧
      t.st.toNat = timerAfter s.nextInput.tick s.st

/-- In WAIT_KEY the first key-down completes the wait: the key's index goes to the waiting register,
PC moves past the Fx0A and the engine is in RUN, without executing an instruction in this poll. The
events after it only move the latch, but for a quit, which halts and stops the tick
(spec/44_keys_timers.md, the spec's decision D21). -/
def Obligations.FirstKeyDownCompletesWait : Prop :=
  ∀ (s : State) (before after : List Event) (k : Nibble),
    s.es = .waitKey → s.nextInput.events = before ++ .keyDown k :: after →
    Event.quit ∉ before → (∀ j, Event.keyDown j ∉ before) →
    ∃ t, step s = .next t ∧
      t = { s with
        v := t.v
        pc := s.pc + 2
        keys := t.keys
        dt := t.dt
        st := t.st
        es := if Event.quit ∈ after then .halted else .run
        haltCause := if Event.quit ∈ after then .quit else s.haltCause
        inputs := s.inputs.tail
        drawn := s.drawn + 1
        rand := s.nextInput.rand } ∧
      (t.reg s.waitX).toNat = k.toNat ∧
      (∀ y, y ≠ s.waitX → t.reg y = s.reg y) ∧
      (∀ j, t.key j = keyAfter j (s.key j) s.nextInput.events) ∧
      t.dt.toNat =
        timerAfter (s.nextInput.tick && !decide (Event.quit ∈ after)) s.dt ∧
      t.st.toNat =
        timerAfter (s.nextInput.tick && !decide (Event.quit ∈ after)) s.st

/-- However many iterations follow a halt, nothing changes, no input has an effect, and the sound is
off (spec/60_exceptions.md section 7 and spec/10_state.md section 11, the spec's decision D19). -/
def Obligations.HaltedStaysHalted : Prop :=
  ∀ (n : Nat) (s : State), s.es = .halted →
    core.run n s = .next s ∧ s.soundOn = false

/-- A fetch above 0xFFE takes FETCH_OUT_OF_RANGE with the word 0x0000, on the state after the
iteration's inputs (spec/20_memory.md section 4, spec/60_exceptions.md sections 1 and 2, the spec's
decisions D4 and D18). -/
def Obligations.FetchAboveRangeFaults : Prop :=
  ∀ s : State, s.es = .run → Event.quit ∉ s.nextInput.events → 0xFFE < s.pc.toNat →
    step s = .next
      { s.applyInputs with
        es := .halted
        haltCause := .fault
        faultCode := .fetchOutOfRange
        faultPc := s.pc
        faultOp := 0x0000 }

/-- A fetched word of the illegal space takes UNSUPPORTED with its address and itself, and does
nothing else (spec/60_exceptions.md sections 1 and 2, the spec's decision D18). -/
def Obligations.UnsupportedWordFaults : Prop :=
  ∀ (s : State) (hi lo : Byte),
    s.es = .run → Event.quit ∉ s.nextInput.events →
    s.readByte s.pc.toNat = some hi → s.readByte (s.pc.toNat + 1) = some lo →
    decodeBytes s.cfg.strictGroup0 [hi, lo] = .error .unsupported →
    step s = .next
      { s.applyInputs with
        es := .halted
        haltCause := .fault
        faultCode := .unsupported
        faultPc := s.pc
        faultOp := hi ++ lo }

/-- Every step of every state answers a next state: the machine has no stop but HALTED, in which it
goes on doing nothing (log entry 6). -/
def Obligations.EveryStepAnswersNext : Prop :=
  ∀ s : State, ∃ t, step s = .next t

/-! ### Invariants -/

/-- Every step keeps the memory canonical: addresses below 4096, strictly rising, none at its reset
content (the form is the model's choice, log entry 7). -/
def Obligations.StepKeepsMemoryCanonical : Prop :=
  ∀ s t : State, s.memOk = true → step s = .next t → t.memOk = true

/-- Every step keeps the stack within STACK_DEPTH, PC at most 0x10FE, every return address at most
0x1000, and PC in fetch range while waiting for a key (spec/10_state.md sections 3 and 4). -/
def Obligations.StepKeepsStackAndPcBounds : Prop :=
  ∀ s t : State, s.stackOk = true → s.pcOk = true → step s = .next t →
    t.stackOk = true ∧ t.pcOk = true

/-- Every step keeps the fault record telling the truth: HALTED exactly with a cause, a code exactly
for a fault, then with the address in PC, and no address or word otherwise (spec/10_state.md section
9, the spec's decision D18). -/
def Obligations.StepKeepsFaultRecord : Prop :=
  ∀ s t : State, s.recordOk = true → step s = .next t → t.recordOk = true

/-- The reset state meets every invariant. The canonical form `memOk` is the model's choice (log entry
7), the default parameters are the spec's decisions D5 and D8 in the model's field `cfg` (log entry 3),
and the reset values the other invariants read are its decisions D6 and D18. -/
def Obligations.ResetMeetsInvariants : Prop :=
  State.reset.memOk = true ∧ State.reset.stackOk = true ∧ State.reset.pcOk = true ∧
    State.reset.recordOk = true

/-- Every load, failed or not, meets every invariant, whatever the parameters and the image. The
canonical form `memOk` is the model's choice (log entry 7), and so is what a failed load leaves beside
HALTED and LOAD_ERROR (log entry 5, unsafe). HALTED and LOAD_ERROR are the spec's decision D27, the
reset values its decisions D6, D7 and D18, the parameters the model's field `cfg` (log entry 3). -/
def Obligations.LoadMeetsInvariants : Prop :=
  ∀ (p : Params) (image : List Byte),
    (State.load p image).memOk = true ∧ (State.load p image).stackOk = true ∧
      (State.load p image).pcOk = true ∧ (State.load p image).recordOk = true

/-- No step changes the machine's parameters (the field is the model's own, log entry 3). -/
def Obligations.StepKeepsParameters : Prop :=
  ∀ s t : State, step s = .next t → t.cfg = s.cfg

/-! ### Whole-machine rules over all instructions -/

/-- An instruction that leaves RUN for HALTED has taken a fault, which writes the fault record and
nothing else; so no instruction halts the engine without a fault (spec/60_exceptions.md sections 2 and
9, the spec's decisions D18 and D19). -/
def Obligations.FaultsArePrecise : Prop :=
  ∀ (i : Instr) (s t : State), s.es ≠ .halted → exec i s = .next t → t.es = .halted →
    t.faultCode ≠ .none ∧
    t = { s with
      es := .halted
      haltCause := .fault
      faultCode := t.faultCode
      faultPc := s.pc
      faultOp := encode i }

/-- Only Fx33 and Fx55 change memory (spec/20_memory.md sections 1 and 2). -/
def Obligations.OnlyStoresChangeMemory : Prop :=
  ∀ (i : Instr) (s t : State), exec i s = .next t →
    (∃ x, i = .ldB x) ∨ (∃ x, i = .ldMemVx x) ∨
      (t.mem = s.mem ∧ ∀ a, t.readByte a = s.readByte a)

/-- Only CLS and DRW change the framebuffer (spec/10_state.md section 7). -/
def Obligations.OnlyDisplayInstructionsChangeFramebuffer : Prop :=
  ∀ (i : Instr) (s t : State), exec i s = .next t →
    (∃ q, i = .cls q) ∨ (∃ x y n, i = .drw x y n) ∨ t.fb = s.fb

/-- An instruction changes a V register only if it is one of those the spec's table lists for that
instruction (spec/10_state.md section 1); so VF is left alone by every instruction that neither
writes a flag nor names VF as its destination. -/
def Obligations.OnlyListedRegistersChange : Prop :=
  ∀ (i : Instr) (s t : State) (y : Nibble), exec i s = .next t → writesReg i y = false →
    t.reg y = s.reg y

/-- The writers of the other registers: I, DT, ST and the stack have theirs; no instruction writes
the key latch, the parameters or the inputs (spec/10_state.md sections 2, 4, 6 and 8). -/
def Obligations.OnlyListedInstructionsChangeSpecialRegisters : Prop :=
  ∀ (i : Instr) (s t : State), exec i s = .next t →
    ((∃ a, i = .ldI a) ∨ (∃ x, i = .addI x) ∨ (∃ x, i = .ldF x) ∨ t.i = s.i) ∧
    ((∃ x, i = .ldDtVx x) ∨ t.dt = s.dt) ∧
    ((∃ x, i = .ldStVx x) ∨ t.st = s.st) ∧
    ((∃ a, i = .call a) ∨ (∃ q, i = .ret q) ∨ t.stack = s.stack) ∧
    ((∃ x, i = .ldVxK x) ∨ t.waitX = s.waitX) ∧
    t.keys = s.keys ∧ t.cfg = s.cfg ∧ t.inputs = s.inputs ∧ t.drawn = s.drawn ∧ t.rand = s.rand

/-- No instruction reads ST; only LD Vx, DT reads DT, only SKP and SKNP read the key latch, and only
RND reads the random byte: with any other value there, every other instruction does the same. The
changed value itself stays as it was put, but for the timer that LD ST, Vx or LD DT, Vx replaces: the
next state is then the same, old timer or new (spec/10_state.md sections 6 and 8; the timers' words are
the spec's decision D28, the random byte D16; the field `rand` is the model's, log entry 1). -/
def Obligations.UnreadStateDoesNotMatter : Prop :=
  ∀ (i : Instr) (s t : State), exec i s = .next t →
    ((∃ x, i = .ldStVx x) → ∀ a, exec i { s with st := a } = .next t) ∧
    ((∀ x, i ≠ .ldStVx x) → ∀ a, exec i { s with st := a } = .next { t with st := a }) ∧
    ((∃ x, i = .ldDtVx x) → ∀ a, exec i { s with dt := a } = .next t) ∧
    ((∀ x, i ≠ .ldDtVx x ∧ i ≠ .ldVxDt x) →
      ∀ a, exec i { s with dt := a } = .next { t with dt := a }) ∧
    ((∀ x, i ≠ .skp x ∧ i ≠ .sknp x) →
      ∀ ks, exec i { s with keys := ks } = .next { t with keys := ks }) ∧
    ((∀ x nn, i ≠ .rnd x nn) → ∀ r, exec i { s with rand := r } = .next { t with rand := r })

/-! ### Display -/

/-- CLS turns every pixel off and changes nothing else but PC; its words are 0x0nE0, or 0x00E0 alone
under STRICT_GROUP0. -/
def Obligations.ClsClearsFramebuffer : Prop :=
  ∀ (q : Nibble) (s : State),
    decode false (0x0#4 ++ q ++ 0xE0#8) = .ok (.cls q) ∧
    decode true 0x00E0 = .ok (.cls 0) ∧
    (q ≠ 0 → decode true (0x0#4 ++ q ++ 0xE0#8) ≠ .ok (.cls q)) ∧
    ∃ t, exec (.cls q) s = .next t ∧ (∀ row col, t.pixel row col = false) ∧
      t = { s with fb := t.fb, pc := s.pc + 2 }

/-- DRW in range: each pixel is the exclusive OR of what it was and the sprite's bit there, with the
wrap of each coordinate on its own; VF is 1 exactly when a lit pixel lay under a sprite bit, else 0;
nothing else changes but PC. With n = 0 nothing is drawn and VF is 0. Out of range it takes
DATA_OUT_OF_RANGE and draws nothing (spec/40_display.md, the spec's decisions D4, D12, D15, D29, D30). -/
def Obligations.DrwXorsSprite : Prop :=
  ∀ (strict : Bool) (x y n : Nibble) (s : State),
    decode strict (0xD#4 ++ x ++ y ++ n) = .ok (.drw x y n) ∧
    ((n.toNat = 0 ∨ s.i.toNat + n.toNat - 1 ≤ 0xFFF) →
      ∃ t, exec (.drw x y n) s = .next t ∧
        (∀ row col, t.pixel row col = true ↔
          Xor (s.pixel row col = true) (SpriteCovers s x y n row col)) ∧
        ((∃ row col, s.pixel row col = true ∧ SpriteCovers s x y n row col) → t.reg 0xF = 1) ∧
        ((¬ ∃ row col, s.pixel row col = true ∧ SpriteCovers s x y n row col) → t.reg 0xF = 0) ∧
        (∀ z, z ≠ 0xF → t.reg z = s.reg z) ∧
        t = { s with fb := t.fb, v := t.v, pc := s.pc + 2 }) ∧
    ((n.toNat ≠ 0 ∧ 0xFFF < s.i.toNat + n.toNat - 1) →
      exec (.drw x y n) s = .next
        { s with
          es := .halted
          haltCause := .fault
          faultCode := .dataOutOfRange
          faultPc := s.pc
          faultOp := 0xD#4 ++ x ++ y ++ n })

/-- Drawing the same sprite twice in a row, with coordinates not in VF, restores the framebuffer, and
the second VF is 1 exactly when the first draw lit a pixel (spec/40_display.md, double draw, which
the spec derives). -/
def Obligations.DrawTwiceRestoresFramebuffer : Prop :=
  ∀ (x y n : Nibble) (s : State), x ≠ 0xF → y ≠ 0xF →
    (n.toNat = 0 ∨ s.i.toNat + n.toNat - 1 ≤ 0xFFF) →
    ∃ t u, exec (.drw x y n) s = .next t ∧ exec (.drw x y n) t = .next u ∧ u.fb = s.fb ∧
      (u.reg 0xF = 1 ↔ ∃ row col, s.pixel row col = false ∧ t.pixel row col = true)

/-! ### Control transfer -/

/-- RET pops the return address into PC, with no 2 added, and the next fetch faults when that is above
0xFFE; on an empty stack it takes STACK_UNDERFLOW and changes neither PC nor the stack
(spec/41_flow.md; the word's middle nibble is the spec's decision D10, the fetch fault D4). -/
def Obligations.RetPopsReturnAddress : Prop :=
  ∀ (q : Nibble) (s : State),
    decode false (0x0#4 ++ q ++ 0xEE#8) = .ok (.ret q) ∧
    decode true 0x00EE = .ok (.ret 0) ∧
    (q ≠ 0 → decode true (0x0#4 ++ q ++ 0xEE#8) ≠ .ok (.ret q)) ∧
    (∀ below a, s.stack = below ++ [a] →
      exec (.ret q) s = .next { s with stack := below, pc := a } ∧
      (0xFFE < a.toNat → NextFetchFaults { s with stack := below, pc := a })) ∧
    (s.stack = [] →
      exec (.ret q) s = .next
        { s with
          es := .halted
          haltCause := .fault
          faultCode := .stackUnderflow
          faultPc := s.pc
          faultOp := 0x0#4 ++ q ++ 0xEE#8 })

/-- SYS always takes the fault LEGACY_SYS and has no other effect (spec/41_flow.md; that middle
nibbles of CLS and RET count as SYS under STRICT_GROUP0 is the spec's decision D10). -/
def Obligations.SysFaultsAlways : Prop :=
  ∀ (nnn : Addr12) (s : State),
    exec (.sys nnn) s = .next
      { s with
        es := .halted
        haltCause := .fault
        faultCode := .legacySys
        faultPc := s.pc
        faultOp := 0x0#4 ++ nnn }

/-- JP sets PC to nnn, odd or even, and changes nothing else: to its own address, nothing at all. After
a jump to 0xFFF the next fetch faults (spec/41_flow.md; the fetch fault is the spec's decision D4). -/
def Obligations.JpSetsPc : Prop :=
  ∀ (strict : Bool) (nnn : Addr12) (s : State),
    decode strict (0x1#4 ++ nnn) = .ok (.jp nnn) ∧
    ∃ t, exec (.jp nnn) s = .next t ∧ t.pc.toNat = nnn.toNat ∧ t = { s with pc := t.pc } ∧
      (s.pc.toNat = nnn.toNat → t = s) ∧ (nnn.toNat = 0xFFF → NextFetchFaults t)

/-- CALL pushes PC + 2 and sets PC to nnn; with STACK_DEPTH entries on the stack it takes
STACK_OVERFLOW and changes neither (spec/41_flow.md, the spec's decision D5). An unbounded stack
never overflows. -/
def Obligations.CallPushesReturnAddress : Prop :=
  ∀ (strict : Bool) (nnn : Addr12) (s : State),
    decode strict (0x2#4 ++ nnn) = .ok (.call nnn) ∧
    ((∀ d, s.cfg.stackDepth = some d → s.stack.length < d) →
      ∃ t, exec (.call nnn) s = .next t ∧ t.stack = s.stack ++ [s.pc + 2] ∧
        t.pc.toNat = nnn.toNat ∧ t = { s with stack := t.stack, pc := t.pc }) ∧
    (s.cfg.stackDepth = some s.stack.length →
      exec (.call nnn) s = .next
        { s with
          es := .halted
          haltCause := .fault
          faultCode := .stackOverflow
          faultPc := s.pc
          faultOp := 0x2#4 ++ nnn })

/-- A CALL and a RET that finds the same stack bring PC to the instruction after the call, and the
stack to what it was. -/
def Obligations.CallThenRetComesBack : Prop :=
  ∀ (nnn : Addr12) (q : Nibble) (s : State),
    (∀ d, s.cfg.stackDepth = some d → s.stack.length < d) →
    ∃ t, exec (.call nnn) s = .next t ∧
      ∀ u : State, u.stack = t.stack →
        ∃ r, exec (.ret q) u = .next r ∧ r.pc = s.pc + 2 ∧ r.stack = s.stack

/-- The skips on an immediate move PC by 4 when Vx equals nn (SE) or differs from it (SNE), else by
2, and change nothing else, whatever word is skipped. When PC then exceeds 0xFFE, the next fetch
faults (spec/41_flow.md; the fetch fault is the spec's decision D4). -/
def Obligations.SkipsOnImmediate : Prop :=
  ∀ (strict : Bool) (x : Nibble) (nn : Byte) (s : State),
    decode strict (0x3#4 ++ x ++ nn) = .ok (.seImm x nn) ∧
    decode strict (0x4#4 ++ x ++ nn) = .ok (.sneImm x nn) ∧
    exec (.seImm x nn) s = .next { s with pc := if s.reg x = nn then s.pc + 4 else s.pc + 2 } ∧
    exec (.sneImm x nn) s = .next { s with pc := if s.reg x = nn then s.pc + 2 else s.pc + 4 } ∧
    ∀ t, (exec (.seImm x nn) s = .next t ∨ exec (.sneImm x nn) s = .next t) →
      0xFFE < t.pc.toNat → NextFetchFaults t

/-- The skips on two registers move PC by 4 when Vx equals Vy (SE) or differs from it (SNE), else by
2, and change nothing else; their words have low nibble 0 (the spec's decision D11). -/
def Obligations.SkipsOnRegister : Prop :=
  ∀ (strict : Bool) (x y : Nibble) (s : State),
    decode strict (0x5#4 ++ x ++ y ++ 0x0#4) = .ok (.seReg x y) ∧
    decode strict (0x9#4 ++ x ++ y ++ 0x0#4) = .ok (.sneReg x y) ∧
    exec (.seReg x y) s = .next { s with pc := if s.reg x = s.reg y then s.pc + 4 else s.pc + 2 } ∧
    exec (.sneReg x y) s = .next { s with pc := if s.reg x = s.reg y then s.pc + 2 else s.pc + 4 }

/-- JP V0 sets PC to V0 + nnn with no 12-bit wrap, at most 0x10FE, and changes nothing else
(spec/41_flow.md, the spec's decisions D2 and D4). -/
def Obligations.JpV0AddsV0 : Prop :=
  ∀ (strict : Bool) (nnn : Addr12) (s : State),
    decode strict (0xB#4 ++ nnn) = .ok (.jpV0 nnn) ∧
    ∃ t, exec (.jpV0 nnn) s = .next t ∧ t.pc.toNat = (s.reg 0).toNat + nnn.toNat ∧
      t.pc.toNat ≤ 0x10FE ∧ t = { s with pc := t.pc }

/-! ### Registers and ALU -/

/-- LD Vx, nn loads nn into Vx and changes nothing else but PC. -/
def Obligations.LdImmLoadsImmediate : Prop :=
  ∀ (strict : Bool) (x : Nibble) (nn : Byte) (s : State),
    decode strict (0x6#4 ++ x ++ nn) = .ok (.ldImm x nn) ∧
    ∃ t, exec (.ldImm x nn) s = .next t ∧ t.reg x = nn ∧ RegFrame s t [x]

/-- ADD Vx, nn adds modulo 256 and writes no flag: VF is unchanged when x is not F. -/
def Obligations.AddImmAddsWithoutFlag : Prop :=
  ∀ (strict : Bool) (x : Nibble) (nn : Byte) (s : State),
    decode strict (0x7#4 ++ x ++ nn) = .ok (.addImm x nn) ∧
    ∃ t, exec (.addImm x nn) s = .next t ∧
      (t.reg x).toNat = ((s.reg x).toNat + nn.toNat) % 256 ∧
      (x ≠ 0xF → t.reg 0xF = s.reg 0xF) ∧ RegFrame s t [x]

/-- LD Vx, Vy copies Vy to Vx and changes nothing else but PC. -/
def Obligations.LdRegCopies : Prop :=
  ∀ (strict : Bool) (x y : Nibble) (s : State),
    decode strict (0x8#4 ++ x ++ y ++ 0x0#4) = .ok (.ldReg x y) ∧
    ∃ t, exec (.ldReg x y) s = .next t ∧ t.reg x = s.reg y ∧ RegFrame s t [x]

/-- OR, AND and XOR act bit by bit on Vx and write no flag: VF is unchanged when x is not F. -/
def Obligations.LogicActsBitwiseWithoutFlag : Prop :=
  ∀ (strict : Bool) (x y : Nibble) (s : State),
    decode strict (0x8#4 ++ x ++ y ++ 0x1#4) = .ok (.orReg x y) ∧
    decode strict (0x8#4 ++ x ++ y ++ 0x2#4) = .ok (.andReg x y) ∧
    decode strict (0x8#4 ++ x ++ y ++ 0x3#4) = .ok (.xorReg x y) ∧
    (∃ t, exec (.orReg x y) s = .next t ∧ RegFrame s t [x] ∧
      ∀ k, (t.reg x).getLsbD k = ((s.reg x).getLsbD k || (s.reg y).getLsbD k)) ∧
    (∃ t, exec (.andReg x y) s = .next t ∧ RegFrame s t [x] ∧
      ∀ k, (t.reg x).getLsbD k = ((s.reg x).getLsbD k && (s.reg y).getLsbD k)) ∧
    (∃ t, exec (.xorReg x y) s = .next t ∧ RegFrame s t [x] ∧
      ∀ k, (t.reg x).getLsbD k = ((s.reg x).getLsbD k ^^ (s.reg y).getLsbD k))

/-- ADD Vx, Vy adds modulo 256 and sets VF to the carry, written last, so that for x = F it is VF
that holds the flag (spec/42_alu.md; the write order is the spec's decision D12). -/
def Obligations.AddRegSetsCarry : Prop :=
  ∀ (strict : Bool) (x y : Nibble) (s : State),
    decode strict (0x8#4 ++ x ++ y ++ 0x4#4) = .ok (.addReg x y) ∧
    ∃ t, exec (.addReg x y) s = .next t ∧
      (x ≠ 0xF → (t.reg x).toNat = ((s.reg x).toNat + (s.reg y).toNat) % 256) ∧
      t.reg 0xF = (if 255 < (s.reg x).toNat + (s.reg y).toNat then 1 else 0) ∧
      RegFrame s t [x, 0xF]

/-- SUB and SUBN subtract modulo 256, Vx - Vy and Vy - Vx, and set VF to not-borrow: 1 when the
minuend is at least the subtrahend. The flag is written last (spec/42_alu.md; the write order is the
spec's decision D12, and SUBN's condition is derived by the spec). -/
def Obligations.SubtractionsSetNotBorrow : Prop :=
  ∀ (strict : Bool) (x y : Nibble) (s : State),
    decode strict (0x8#4 ++ x ++ y ++ 0x5#4) = .ok (.sub x y) ∧
    decode strict (0x8#4 ++ x ++ y ++ 0x7#4) = .ok (.subn x y) ∧
    (∃ t, exec (.sub x y) s = .next t ∧
      (x ≠ 0xF → ((t.reg x).toNat : Int) = ((s.reg x).toNat - (s.reg y).toNat : Int) % 256) ∧
      t.reg 0xF = (if (s.reg y).toNat ≤ (s.reg x).toNat then 1 else 0) ∧
      RegFrame s t [x, 0xF]) ∧
    (∃ t, exec (.subn x y) s = .next t ∧
      (x ≠ 0xF → ((t.reg x).toNat : Int) = ((s.reg y).toNat - (s.reg x).toNat : Int) % 256) ∧
      t.reg 0xF = (if (s.reg x).toNat ≤ (s.reg y).toNat then 1 else 0) ∧
      RegFrame s t [x, 0xF])

/-- SHR halves Vx and SHL doubles it modulo 256; VF gets the bit shifted out, written last; Vy is not
read (spec/42_alu.md; the write order is the spec's decision D12). -/
def Obligations.ShiftsMoveOneBit : Prop :=
  ∀ (strict : Bool) (x y : Nibble) (s : State),
    decode strict (0x8#4 ++ x ++ y ++ 0x6#4) = .ok (.shr x y) ∧
    decode strict (0x8#4 ++ x ++ y ++ 0xE#4) = .ok (.shl x y) ∧
    (∃ t, exec (.shr x y) s = .next t ∧
      (x ≠ 0xF → (t.reg x).toNat = (s.reg x).toNat / 2) ∧
      (t.reg 0xF).toNat = (s.reg x).toNat % 2 ∧ RegFrame s t [x, 0xF]) ∧
    (∃ t, exec (.shl x y) s = .next t ∧
      (x ≠ 0xF → (t.reg x).toNat = 2 * (s.reg x).toNat % 256) ∧
      (t.reg 0xF).toNat = (s.reg x).toNat / 128 ∧ RegFrame s t [x, 0xF])

/-- RND puts the sampled random byte, masked by nn, into Vx, for every random byte, and changes
nothing else but PC (spec/42_alu.md, the spec's decision D16; the byte is a free value, log entry 1). -/
def Obligations.RndMasksRandomByte : Prop :=
  ∀ (strict : Bool) (x : Nibble) (nn : Byte) (s : State),
    decode strict (0xC#4 ++ x ++ nn) = .ok (.rnd x nn) ∧
    ∃ t, exec (.rnd x nn) s = .next t ∧ RegFrame s t [x] ∧
      ∀ k, (t.reg x).getLsbD k = (s.rand.getLsbD k && nn.getLsbD k)

/-! ### Index register and memory -/

/-- LD I, nnn loads nnn into I and changes nothing else but PC. -/
def Obligations.LdILoadsAddress : Prop :=
  ∀ (strict : Bool) (nnn : Addr12) (s : State),
    decode strict (0xA#4 ++ nnn) = .ok (.ldI nnn) ∧
    ∃ t, exec (.ldI nnn) s = .next t ∧ t.i.toNat = nnn.toNat ∧ t.i.toNat ≤ 0xFFF ∧
      t = { s with i := t.i, pc := s.pc + 2 }

/-- ADD I, Vx adds to I modulo 2^16 and sets VF to 1 exactly when the exact sum exceeds 0xFFF
(spec/43_index_memory.md, the spec's decisions D12 and D14). -/
def Obligations.AddISetsOverflowFlag : Prop :=
  ∀ (strict : Bool) (x : Nibble) (s : State),
    decode strict (0xF#4 ++ x ++ 0x1E#8) = .ok (.addI x) ∧
    ∃ t, exec (.addI x) s = .next t ∧ t.i.toNat = (s.i.toNat + (s.reg x).toNat) % 65536 ∧
      t.reg 0xF = (if 0xFFF < s.i.toNat + (s.reg x).toNat then 1 else 0) ∧
      (∀ y, y ≠ 0xF → t.reg y = s.reg y) ∧
      t = { s with i := t.i, v := t.v, pc := s.pc + 2 }

/-- LD F, Vx sets I to 5 times Vx, for every Vx, and changes nothing else but PC
(spec/43_index_memory.md; that Vx is not masked is the spec's decision D31). -/
def Obligations.LdFPointsAtGlyph : Prop :=
  ∀ (strict : Bool) (x : Nibble) (s : State),
    decode strict (0xF#4 ++ x ++ 0x29#8) = .ok (.ldF x) ∧
    ∃ t, exec (.ldF x) s = .next t ∧ t.i.toNat = 5 * (s.reg x).toNat ∧
      t = { s with i := t.i, pc := s.pc + 2 }

/-- LD B, Vx stores the three decimal digits of Vx at I, I + 1 and I + 2 and leaves every other byte
alone; when I + 2 exceeds 0xFFF it takes DATA_OUT_OF_RANGE and stores nothing
(spec/43_index_memory.md, the spec's decision D4). -/
def Obligations.LdBStoresDecimalDigits : Prop :=
  ∀ (strict : Bool) (x : Nibble) (s : State),
    decode strict (0xF#4 ++ x ++ 0x33#8) = .ok (.ldB x) ∧
    (s.i.toNat + 2 ≤ 0xFFF →
      ∃ t, exec (.ldB x) s = .next t ∧
        (∃ h d o : Byte, t.readByte s.i.toNat = some h ∧ t.readByte (s.i.toNat + 1) = some d ∧
          t.readByte (s.i.toNat + 2) = some o ∧ h.toNat = (s.reg x).toNat / 100 ∧
          d.toNat = (s.reg x).toNat / 10 % 10 ∧ o.toNat = (s.reg x).toNat % 10) ∧
        (∀ a, (a < s.i.toNat ∨ s.i.toNat + 2 < a) → t.readByte a = s.readByte a) ∧
        t = { s with mem := t.mem, pc := s.pc + 2 }) ∧
    (0xFFF < s.i.toNat + 2 →
      exec (.ldB x) s = .next
        { s with
          es := .halted
          haltCause := .fault
          faultCode := .dataOutOfRange
          faultPc := s.pc
          faultOp := 0xF#4 ++ x ++ 0x33#8 })

/-- LD [I], Vx stores V0 to Vx, inclusive, from I up and leaves every other byte and I alone; when
I + x exceeds 0xFFF it takes DATA_OUT_OF_RANGE and stores nothing (spec/43_index_memory.md, the
spec's decisions D4 and D13). -/
def Obligations.LdMemStoresRegisters : Prop :=
  ∀ (strict : Bool) (x : Nibble) (s : State),
    decode strict (0xF#4 ++ x ++ 0x55#8) = .ok (.ldMemVx x) ∧
    (s.i.toNat + x.toNat ≤ 0xFFF →
      ∃ t, exec (.ldMemVx x) s = .next t ∧
        (∀ k : Nibble, k.toNat ≤ x.toNat → t.readByte (s.i.toNat + k.toNat) = some (s.reg k)) ∧
        (∀ a, (a < s.i.toNat ∨ s.i.toNat + x.toNat < a) → t.readByte a = s.readByte a) ∧
        t = { s with mem := t.mem, pc := s.pc + 2 }) ∧
    (0xFFF < s.i.toNat + x.toNat →
      exec (.ldMemVx x) s = .next
        { s with
          es := .halted
          haltCause := .fault
          faultCode := .dataOutOfRange
          faultPc := s.pc
          faultOp := 0xF#4 ++ x ++ 0x55#8 })

/-- LD Vx, [I] loads V0 to Vx, inclusive, from I up and leaves every other register and I alone; when
I + x exceeds 0xFFF it takes DATA_OUT_OF_RANGE and loads nothing (spec/43_index_memory.md, the spec's
decisions D4 and D13). -/
def Obligations.LdVxMemLoadsRegisters : Prop :=
  ∀ (strict : Bool) (x : Nibble) (s : State),
    decode strict (0xF#4 ++ x ++ 0x65#8) = .ok (.ldVxMem x) ∧
    (s.i.toNat + x.toNat ≤ 0xFFF →
      ∃ t, exec (.ldVxMem x) s = .next t ∧
        (∀ k : Nibble, k.toNat ≤ x.toNat → s.readByte (s.i.toNat + k.toNat) = some (t.reg k)) ∧
        (∀ k : Nibble, x.toNat < k.toNat → t.reg k = s.reg k) ∧
        t = { s with v := t.v, pc := s.pc + 2 }) ∧
    (0xFFF < s.i.toNat + x.toNat →
      exec (.ldVxMem x) s = .next
        { s with
          es := .halted
          haltCause := .fault
          faultCode := .dataOutOfRange
          faultPc := s.pc
          faultOp := 0xF#4 ++ x ++ 0x65#8 })

/-- A bulk load from where a bulk store of the same registers went reproduces them, whatever the
registers hold in between. -/
def Obligations.StoreThenLoadRestoresRegisters : Prop :=
  ∀ (x : Nibble) (s : State), s.i.toNat + x.toNat ≤ 0xFFF →
    ∃ t, exec (.ldMemVx x) s = .next t ∧
      ∀ u : State, u.mem = t.mem → u.i = t.i → u.cfg = t.cfg →
        ∃ r, exec (.ldVxMem x) u = .next r ∧
          ∀ k : Nibble, k.toNat ≤ x.toNat → r.reg k = s.reg k

/-! ### Keys and timers -/

/-- SKP and SKNP move PC by 4 when the key Vx names is down (SKP) or up (SKNP), else by 2; when Vx
exceeds 0xF they take KEY_OUT_OF_RANGE (spec/44_keys_timers.md, the spec's decision D17). -/
def Obligations.KeySkips : Prop :=
  ∀ (strict : Bool) (x : Nibble) (s : State),
    decode strict (0xE#4 ++ x ++ 0x9E#8) = .ok (.skp x) ∧
    decode strict (0xE#4 ++ x ++ 0xA1#8) = .ok (.sknp x) ∧
    (∀ k : Nibble, (s.reg x).toNat = k.toNat →
      exec (.skp x) s = .next { s with pc := if s.key k then s.pc + 4 else s.pc + 2 } ∧
      exec (.sknp x) s = .next { s with pc := if s.key k then s.pc + 2 else s.pc + 4 }) ∧
    (0xF < (s.reg x).toNat →
      exec (.skp x) s = .next
        { s with
          es := .halted
          haltCause := .fault
          faultCode := .keyOutOfRange
          faultPc := s.pc
          faultOp := 0xE#4 ++ x ++ 0x9E#8 } ∧
      exec (.sknp x) s = .next
        { s with
          es := .halted
          haltCause := .fault
          faultCode := .keyOutOfRange
          faultPc := s.pc
          faultOp := 0xE#4 ++ x ++ 0xA1#8 })

/-- LD DT, Vx and LD ST, Vx replace the timer by Vx and change nothing else but PC; the sound is then
on exactly while ST is above 0 and the engine is not halted (spec/44_keys_timers.md; which word sets
which timer is the spec's decision D28). -/
def Obligations.TimersAreSet : Prop :=
  ∀ (strict : Bool) (x : Nibble) (s : State),
    decode strict (0xF#4 ++ x ++ 0x15#8) = .ok (.ldDtVx x) ∧
    decode strict (0xF#4 ++ x ++ 0x18#8) = .ok (.ldStVx x) ∧
    exec (.ldDtVx x) s = .next { s with dt := s.reg x, pc := s.pc + 2 } ∧
    ∃ t, exec (.ldStVx x) s = .next t ∧ t = { s with st := s.reg x, pc := s.pc + 2 } ∧
      (t.soundOn = true ↔ 0 < (s.reg x).toNat ∧ s.es ≠ .halted)

/-- LD Vx, DT reads the delay timer into Vx and changes nothing else but PC; in a step, the timer it
reads is the one after the iteration's tick (`StepRunsDecodedInstruction`). That the word reads the
delay timer is the spec's decision D28. -/
def Obligations.LdVxDtReadsDelayTimer : Prop :=
  ∀ (strict : Bool) (x : Nibble) (s : State),
    decode strict (0xF#4 ++ x ++ 0x07#8) = .ok (.ldVxDt x) ∧
    ∃ t, exec (.ldVxDt x) s = .next t ∧ t.reg x = s.dt ∧ RegFrame s t [x]

/-- LD Vx, K enters WAIT_KEY for Vx and changes nothing else: PC stays at the instruction
(spec/44_keys_timers.md, the spec's decision D21). -/
def Obligations.LdVxKEntersWait : Prop :=
  ∀ (strict : Bool) (x : Nibble) (s : State),
    decode strict (0xF#4 ++ x ++ 0x0A#8) = .ok (.ldVxK x) ∧
    exec (.ldVxK x) s = .next { s with es := .waitKey, waitX := x }

/-! ### Reset and load -/

/-- The reset state, field by field. The spec's source fixes PC and the glyphs' place; the other
values are the spec's decisions D6, D7, D8 and D18. The last four clauses are the model's own fields
(log entries 1 and 3). -/
def Obligations.ResetState : Prop :=
  State.reset.pc = 0x200 ∧ (∀ x, State.reset.reg x = 0) ∧ State.reset.i = 0 ∧
    State.reset.stack = [] ∧ State.reset.dt = 0 ∧ State.reset.st = 0 ∧
    (∀ row col, State.reset.pixel row col = false) ∧ (∀ k, State.reset.key k = false) ∧
    State.reset.es = .run ∧ State.reset.waitX = 0 ∧ State.reset.haltCause = .none ∧
    State.reset.faultCode.code = 0 ∧ State.reset.faultPc = 0 ∧ State.reset.faultOp = 0 ∧
    (∀ a (h : a < 80), State.reset.readByte a = some Config.glyphRom[a]) ∧
    (∀ a, 80 ≤ a → a ≤ 0xFFF → State.reset.readByte a = some 0) ∧
    State.reset.cfg = Config.defaults ∧ State.reset.inputs = [] ∧ State.reset.drawn = 0 ∧
    State.reset.rand = 0

/-- A load of at most 3584 bytes puts the image at 0x200, the glyphs at 0x000 and zeros elsewhere and
is otherwise the reset state; a longer image halts the machine for good with LOAD_ERROR
(spec/10_state.md section 11, spec/70_reset_and_hazards.md section 1, the spec's decisions D6, D7 and
D27). -/
def Obligations.LoadPlacesImage : Prop :=
  ∀ (p : Params) (image : List Byte),
    (image.length ≤ 3584 →
      State.load p image = { State.resetWith p with mem := (State.load p image).mem } ∧
      (∀ k (h : k < image.length), (State.load p image).readByte (0x200 + k) = some image[k]) ∧
      (∀ a (h : a < 80), (State.load p image).readByte a = some p.glyphRom[a]) ∧
      (∀ a, 80 ≤ a → a ≤ 0xFFF → (a < 0x200 ∨ 0x200 + image.length ≤ a) →
        (State.load p image).readByte a = some 0)) ∧
    (3584 < image.length →
      (State.load p image).es = .halted ∧ (State.load p image).haltCause = .loadError ∧
      ∀ n, core.run n (State.load p image) = .next (State.load p image))
end

