-- ==== Sys2Proof/Laws/Draw.lean ====
section
/-! SUPPORT. What the draw loop does to each pixel. -/

namespace Sys2Proof.Machine

@[simp] theorem Framebuffer.pixel_setPixel (fb : Framebuffer) (y r : Fin 32) (x c : Fin 64)
    (b : Bool) :
    Framebuffer.pixel (Framebuffer.setPixel fb y x b) r c =
      if (r, c) = (y, x) then b else Framebuffer.pixel fb r c := by
  by_cases hr : y = r
  · subst hr
    by_cases hc : x = c
    · subst hc; simp [Framebuffer.pixel, Framebuffer.setPixel]
    · have hc' : (x : Nat) ≠ c := fun h => hc (Fin.ext h)
      simp [Framebuffer.pixel, Framebuffer.setPixel, hc', Ne.symm hc]
  · have hr' : (y : Nat) ≠ r := fun h => hr (Fin.ext h)
    simp [Framebuffer.pixel, Framebuffer.setPixel, hr', Ne.symm hr]

@[simp] theorem Framebuffer.pixel_clear (r : Fin 32) (c : Fin 64) :
    Framebuffer.pixel Framebuffer.clear r c = false := by
  simp [Framebuffer.pixel, Framebuffer.clear]

/-- Two framebuffers with the same pixels are the same. -/
theorem Framebuffer.ext_pixel {fb gb : Framebuffer}
    (h : ∀ r c, Framebuffer.pixel fb r c = Framebuffer.pixel gb r c) : fb = gb := by
  apply Vector.ext
  intro r hr
  apply Vector.ext
  intro c hc
  exact h ⟨r, hr⟩ ⟨c, hc⟩

/-- The loop over distinct cells: each of them is toggled, nothing else changes, and the flag says
whether one of them was lit. -/
theorem foldl_togglePixel (cells : List (Fin 32 × Fin 64)) (hnd : cells.Nodup) (fb : Framebuffer)
    (e : Bool) :
    (∀ r c, Framebuffer.pixel (cells.foldl togglePixel (fb, e)).1 r c =
      (Framebuffer.pixel fb r c ^^ decide ((r, c) ∈ cells))) ∧
    (cells.foldl togglePixel (fb, e)).2 = (e || cells.any fun p => Framebuffer.pixel fb p.1 p.2) := by
  induction cells generalizing fb e with
  | nil => simp
  | cons p ps ih =>
    obtain ⟨hp, hps⟩ := List.nodup_cons.1 hnd
    obtain ⟨ih1, ih2⟩ := ih hps (fb.setPixel p.1 p.2 (!fb.pixel p.1 p.2)) (e || fb.pixel p.1 p.2)
    refine ⟨?_, ?_⟩
    · intro r c
      rw [List.foldl_cons, togglePixel, ih1]
      by_cases hc : (r, c) = p
      · subst hc; simp [hp]
      · simp [hc]
    · rw [List.foldl_cons, togglePixel, ih2, List.any_cons, Bool.or_assoc]
      congr 2
      rw [Bool.eq_iff_iff, List.any_eq_true, List.any_eq_true]
      refine exists_congr fun q => and_congr_right fun hq => ?_
      have : q ≠ p := fun h => hp (h ▸ hq)
      simp [this]

/-- The pixels of one row: those under its 1 bits (spec/40_display.md R143). -/
theorem mem_rowCells {y : Fin 32} {x0 : Nat} {b : Byte} {p : Fin 32 × Fin 64} :
    p ∈ rowCells y x0 b ↔
      ∃ c, c < 8 ∧ b.getLsbD (7 - c) = true ∧ p = (y, Fin.ofNat 64 (x0 + c)) := by
  simp only [rowCells, List.mem_map, List.mem_filter, List.mem_range, and_assoc]
  exact exists_congr fun c => and_congr_right fun _ => and_congr_right fun _ => eq_comm

/-- The pixels of a sprite: those of each row, at that row's height (R142). -/
theorem mem_spriteCells {y0 x0 : Nat} {rows : List Byte} {p : Fin 32 × Fin 64} :
    p ∈ spriteCells y0 x0 rows ↔
      ∃ r b, rows[r]? = some b ∧ p ∈ rowCells (Fin.ofNat 32 (y0 + r)) x0 b := by
  induction rows generalizing y0 with
  | nil => simp [spriteCells]
  | cons b bs ih =>
    rw [spriteCells, List.mem_append, ih]
    constructor
    · rintro (h | ⟨r, b', hb, h⟩)
      · exact ⟨0, b, by simp, h⟩
      · exact ⟨r + 1, b', by simpa using hb, by rwa [show y0 + (r + 1) = y0 + 1 + r by omega]⟩
    · rintro ⟨r, b', hb, h⟩
      cases r with
      | zero => exact .inl (by simp_all)
      | succ r =>
        exact .inr ⟨r, b', by simpa using hb, by rwa [show y0 + 1 + r = y0 + (r + 1) by omega]⟩

theorem nodup_rowCells (y : Fin 32) (x0 : Nat) (b : Byte) : (rowCells y x0 b).Nodup := by
  unfold rowCells
  refine List.Nodup.map_on ?_ (List.nodup_range.filter _)
  intro c hc d hd h
  have hc' : c < 8 := List.mem_range.1 (List.mem_of_mem_filter hc)
  have hd' : d < 8 := List.mem_range.1 (List.mem_of_mem_filter hd)
  have h' : (x0 + c) % 64 = (x0 + d) % 64 := congrArg Fin.val (Prod.mk.inj h).2
  omega

/-- The pixels a sprite of at most 32 rows touches are distinct, so none is toggled twice (R141). -/
theorem nodup_spriteCells (y0 x0 : Nat) (rows : List Byte) (h : rows.length ≤ 32) :
    (spriteCells y0 x0 rows).Nodup := by
  induction rows generalizing y0 with
  | nil => exact List.nodup_nil
  | cons b bs ih =>
    simp only [List.length_cons] at h
    rw [spriteCells, List.nodup_append]
    refine ⟨nodup_rowCells _ _ _, ih _ (by omega), ?_⟩
    intro p hp q hq hpq
    subst hpq
    obtain ⟨c, -, -, rfl⟩ := mem_rowCells.1 hp
    obtain ⟨r, b', hb, hq⟩ := mem_spriteCells.1 hq
    obtain ⟨d, -, -, hq⟩ := mem_rowCells.1 hq
    have hr : r < bs.length := (List.getElem?_eq_some_iff.1 hb).1
    have : y0 % 32 = (y0 + 1 + r) % 32 := congrArg Fin.val (Prod.mk.inj hq).1
    omega

/-- R141's loop, pixel by pixel: a touched pixel is toggled and no other pixel changes, and the flag
says whether a touched pixel was lit (R144). -/
theorem drawSprite_spec (fb : Framebuffer) (y0 x0 : Nat) (rows : List Byte)
    (h : rows.length ≤ 32) :
    (∀ r c, Framebuffer.pixel (drawSprite fb y0 x0 rows).1 r c =
      (Framebuffer.pixel fb r c ^^ decide ((r, c) ∈ spriteCells y0 x0 rows))) ∧
    (drawSprite fb y0 x0 rows).2 =
      (spriteCells y0 x0 rows).any fun p => Framebuffer.pixel fb p.1 p.2 := by
  have := foldl_togglePixel _ (nodup_spriteCells y0 x0 rows h) fb false
  simpa [drawSprite] using this

end Sys2Proof.Machine
end

