-- ==== Sys2Proof/Laws/Encoding.lean ====
section
/-! SUPPORT. The word layouts and their fields, each the inverse of the other. -/

namespace Sys2Proof

theorem getLsbD_wordXNN (g x : Nibble) (nn : Byte) (k : Nat) :
    (wordXNN g x nn).getLsbD k =
      if k < 8 then nn.getLsbD k else if k < 12 then x.getLsbD (k - 8) else g.getLsbD (k - 12) := by
  have h : (wordXNN g x nn).getLsbD k = (g ++ x ++ nn : BitVec (4 + 4 + 8)).getLsbD k := rfl
  rw [h, BitVec.getLsbD_append, BitVec.getLsbD_append]
  by_cases h8 : k < 8
  · simp [h8]
  · by_cases h12 : k < 12
    · simp [h8, h12, show k - 8 < 4 by omega]
    · simp [h8, h12, show ¬ k - 8 < 4 by omega, show k - 8 - 4 = k - 12 by omega]

/-- A low byte is two nibbles. -/
theorem wordXYN_eq (g x y n : Nibble) : wordXYN g x y n = wordXNN g x (y ++ n) := by
  apply BitVec.eq_of_getLsbD_eq
  intro k hk
  have h : (wordXYN g x y n).getLsbD k = (g ++ x ++ y ++ n : BitVec (4 + 4 + 4 + 4)).getLsbD k := rfl
  rw [h, getLsbD_wordXNN, BitVec.getLsbD_append, BitVec.getLsbD_append, BitVec.getLsbD_append,
    BitVec.getLsbD_append]
  rcases (by omega : k < 4 ∨ (4 ≤ k ∧ k < 8) ∨ (8 ≤ k ∧ k < 12) ∨ 12 ≤ k) with h | h | h | h
  · simp [h, show k < 8 by omega]
  · simp [show ¬ k < 4 by omega, show k < 8 by omega, show k - 4 < 4 by omega]
  · simp [show ¬ k < 4 by omega, show ¬ k < 8 by omega, show k < 12 by omega,
      show ¬ k - 4 < 4 by omega, show k - 8 < 4 by omega, show k - 4 - 4 = k - 8 by omega]
  · simp [show ¬ k < 4 by omega, show ¬ k < 8 by omega, show ¬ k < 12 by omega,
      show ¬ k - 4 < 4 by omega, show ¬ k - 4 - 4 < 4 by omega, show k - 4 - 4 - 4 = k - 12 by omega]

/-- An address is a nibble and a byte. -/
theorem wordNNN_eq (g : Nibble) (nnn : Addr12) :
    wordNNN g nnn = wordXNN g (nnn.extractLsb' 8 4) (nnn.extractLsb' 0 8) := by
  apply BitVec.eq_of_getLsbD_eq
  intro k hk
  have h : (wordNNN g nnn).getLsbD k = (g ++ nnn : BitVec (4 + 12)).getLsbD k := rfl
  rw [h, getLsbD_wordXNN, BitVec.getLsbD_append, BitVec.getLsbD_extractLsb',
    BitVec.getLsbD_extractLsb']
  rcases (by omega : k < 8 ∨ (8 ≤ k ∧ k < 12) ∨ 12 ≤ k) with h | h | h
  · simp [h, show k < 12 by omega]
  · simp [show ¬ k < 8 by omega, show k < 12 by omega, show k - 8 < 4 by omega,
      show 8 + (k - 8) = k by omega]
  · simp [show ¬ k < 8 by omega, show ¬ k < 12 by omega]

/-! ### The fields of a layout -/

@[simp] theorem fieldGroup_wordXNN (g x : Nibble) (nn : Byte) : fieldGroup (wordXNN g x nn) = g := by
  apply BitVec.eq_of_getLsbD_eq
  intro k hk
  rw [fieldGroup, BitVec.getLsbD_extractLsb', getLsbD_wordXNN]
  simp [hk, show ¬ 12 + k < 8 by omega]

@[simp] theorem fieldX_wordXNN (g x : Nibble) (nn : Byte) : fieldX (wordXNN g x nn) = x := by
  apply BitVec.eq_of_getLsbD_eq
  intro k hk
  rw [fieldX, BitVec.getLsbD_extractLsb', getLsbD_wordXNN]
  simp [hk, show 8 + k < 12 by omega]

@[simp] theorem fieldNN_wordXNN (g x : Nibble) (nn : Byte) : fieldNN (wordXNN g x nn) = nn := by
  apply BitVec.eq_of_getLsbD_eq
  intro k hk
  rw [fieldNN, BitVec.getLsbD_extractLsb', getLsbD_wordXNN]
  simp [hk]

@[simp] theorem fieldGroup_wordXYN (g x y n : Nibble) : fieldGroup (wordXYN g x y n) = g := by
  rw [wordXYN_eq, fieldGroup_wordXNN]

@[simp] theorem fieldX_wordXYN (g x y n : Nibble) : fieldX (wordXYN g x y n) = x := by
  rw [wordXYN_eq, fieldX_wordXNN]

@[simp] theorem fieldY_wordXYN (g x y n : Nibble) : fieldY (wordXYN g x y n) = y := by
  rw [wordXYN_eq]
  apply BitVec.eq_of_getLsbD_eq
  intro k hk
  rw [fieldY, BitVec.getLsbD_extractLsb', getLsbD_wordXNN, BitVec.getLsbD_append]
  simp [hk, show 4 + k < 8 by omega]

@[simp] theorem fieldN_wordXYN (g x y n : Nibble) : fieldN (wordXYN g x y n) = n := by
  rw [wordXYN_eq]
  apply BitVec.eq_of_getLsbD_eq
  intro k hk
  rw [fieldN, BitVec.getLsbD_extractLsb', getLsbD_wordXNN, BitVec.getLsbD_append]
  simp [hk, show k < 8 by omega]

@[simp] theorem fieldGroup_wordNNN (g : Nibble) (nnn : Addr12) : fieldGroup (wordNNN g nnn) = g := by
  rw [wordNNN_eq, fieldGroup_wordXNN]

@[simp] theorem fieldNNN_wordNNN (g : Nibble) (nnn : Addr12) : fieldNNN (wordNNN g nnn) = nnn := by
  rw [wordNNN_eq]
  apply BitVec.eq_of_getLsbD_eq
  intro k hk
  rw [fieldNNN, BitVec.getLsbD_extractLsb', getLsbD_wordXNN, BitVec.getLsbD_extractLsb',
    BitVec.getLsbD_extractLsb']
  by_cases h : k < 8
  · simp [h, hk]
  · simp [h, hk, show k - 8 < 4 by omega, show 8 + (k - 8) = k by omega]

/-! ### A word from its fields -/

theorem wordXNN_fields (w : Word) : wordXNN (fieldGroup w) (fieldX w) (fieldNN w) = w := by
  apply BitVec.eq_of_getLsbD_eq
  intro k hk
  rw [getLsbD_wordXNN, fieldGroup, fieldX, fieldNN, BitVec.getLsbD_extractLsb',
    BitVec.getLsbD_extractLsb', BitVec.getLsbD_extractLsb']
  rcases (by omega : k < 8 ∨ (8 ≤ k ∧ k < 12) ∨ 12 ≤ k) with h | h | h
  · simp [h]
  · simp [show ¬ k < 8 by omega, h.2, show k - 8 < 4 by omega, show 8 + (k - 8) = k by omega]
  · simp [show ¬ k < 8 by omega, show ¬ k < 12 by omega, show k - 12 < 4 by omega,
      show 12 + (k - 12) = k by omega]

theorem fieldNN_eq (w : Word) : fieldNN w = fieldY w ++ fieldN w := by
  apply BitVec.eq_of_getLsbD_eq
  intro k hk
  have h : (fieldY w ++ fieldN w : Byte).getLsbD k =
      (fieldY w ++ fieldN w : BitVec (4 + 4)).getLsbD k := rfl
  rw [h, BitVec.getLsbD_append, fieldNN, fieldY, fieldN, BitVec.getLsbD_extractLsb',
    BitVec.getLsbD_extractLsb', BitVec.getLsbD_extractLsb']
  by_cases h : k < 4
  · simp [h, hk]
  · simp [h, hk, show k - 4 < 4 by omega, show 4 + (k - 4) = k by omega]

theorem wordXYN_fields (w : Word) :
    wordXYN (fieldGroup w) (fieldX w) (fieldY w) (fieldN w) = w := by
  rw [wordXYN_eq, ← fieldNN_eq, wordXNN_fields]

theorem fieldNNN_high (w : Word) : (fieldNNN w).extractLsb' 8 4 = fieldX w := by
  apply BitVec.eq_of_getLsbD_eq
  intro k hk
  rw [fieldNNN, fieldX, BitVec.getLsbD_extractLsb', BitVec.getLsbD_extractLsb',
    BitVec.getLsbD_extractLsb']
  simp [hk, show 8 + k < 12 by omega]

theorem fieldNNN_low (w : Word) : (fieldNNN w).extractLsb' 0 8 = fieldNN w := by
  apply BitVec.eq_of_getLsbD_eq
  intro k hk
  rw [fieldNNN, fieldNN, BitVec.getLsbD_extractLsb', BitVec.getLsbD_extractLsb',
    BitVec.getLsbD_extractLsb']
  simp [hk, show k < 12 by omega]

theorem wordNNN_fields (w : Word) : wordNNN (fieldGroup w) (fieldNNN w) = w := by
  rw [wordNNN_eq, fieldNNN_high, fieldNNN_low, wordXNN_fields]

end Sys2Proof
end

