-- ==== Sys2Proof/Laws/Memory.lean ====
section
/-! SUPPORT. Memory: a read after a write, and the canonical form kept by every operation. -/

namespace Sys2Proof.Machine

theorem Memory.find_erase_self (m : Memory) (a : Nat) : Memory.find (Memory.erase m a) a = none := by
  induction m with
  | nil => rfl
  | cons c rest ih =>
    by_cases h : c.1 = a
    · simpa [Memory.erase, h] using ih
    · simpa [Memory.erase, Memory.find, h] using ih

theorem Memory.find_erase_other (m : Memory) {a b : Nat} (h : b ≠ a) :
    Memory.find (Memory.erase m a) b = Memory.find m b := by
  induction m with
  | nil => rfl
  | cons c rest ih =>
    have ih' : Memory.find (List.filter (fun c => c.1 != a) rest) b = Memory.find rest b := ih
    by_cases hc : c.1 = a
    · have hb : a ≠ b := fun e => h e.symm
      simp [Memory.erase, Memory.find, hc, hb, ih']
    · simp [Memory.erase, Memory.find, hc, ih']

theorem Memory.find_insert_self (m : Memory) (a : Nat) (v : Byte) (h : Memory.find m a = none) :
    Memory.find (Memory.insert m a v) a = some v := by
  induction m with
  | nil => simp [Memory.insert, Memory.find]
  | cons c rest ih =>
    by_cases hc : c.1 = a
    · simp [Memory.find, hc] at h
    · simp only [Memory.find, hc, if_false] at h
      by_cases hlt : a < c.1 <;> simp [Memory.insert, Memory.find, hlt, hc, ih h]

theorem Memory.find_insert_other (m : Memory) {a b : Nat} (v : Byte) (h : b ≠ a) :
    Memory.find (Memory.insert m a v) b = Memory.find m b := by
  have hab : a ≠ b := fun e => h e.symm
  induction m with
  | nil => simp [Memory.insert, Memory.find, hab]
  | cons c rest ih =>
    by_cases hlt : a < c.1
    · simp [Memory.insert, Memory.find, hlt, hab]
    · simp [Memory.insert, Memory.find, hlt, ih]

/-- A read of the address written gives the byte written. -/
@[simp] theorem Memory.read_write_self (rom : Vector Byte 80) (m : Memory) (a : Nat) (v : Byte) :
    Memory.read rom (Memory.write rom m a v) a = v := by
  unfold Memory.write
  split
  · next h => simp [Memory.read, Memory.find_erase_self, h]
  · simp [Memory.read, Memory.find_insert_self _ _ _ (Memory.find_erase_self m a)]

/-- A write leaves every other address alone. -/
theorem Memory.read_write_other (rom : Vector Byte 80) (m : Memory) {a b : Nat} (v : Byte)
    (h : b ≠ a) : Memory.read rom (Memory.write rom m a v) b = Memory.read rom m b := by
  unfold Memory.write
  split
  · simp [Memory.read, Memory.find_erase_other m h]
  · simp [Memory.read, Memory.find_insert_other _ _ h, Memory.find_erase_other m h]

/-- A read after a block store: the block's bytes inside it, the old bytes outside it. -/
theorem Memory.read_writeBytes (rom : Vector Byte 80) (vs : List Byte) (m : Memory) (a c : Nat) :
    Memory.read rom (Memory.writeBytes rom m a vs) c =
      if a ≤ c then vs[c - a]?.getD (Memory.read rom m c) else Memory.read rom m c := by
  induction vs generalizing m a with
  | nil => simp [Memory.writeBytes]
  | cons v vs ih =>
    rw [Memory.writeBytes, ih]
    rcases Nat.lt_trichotomy c a with h | h | h
    · rw [if_neg (by omega), if_neg (by omega), Memory.read_write_other _ _ _ (by omega)]
    · subst h
      simp
    · rw [if_pos (by omega), if_pos (by omega), Memory.read_write_other _ _ _ (by omega),
        show c - a = (c - (a + 1)) + 1 by omega]
      simp

/-! ### The canonical form -/

/-- The canonical form, cell by cell: addresses strictly rising, each cell below 4096 and different
from its reset content. -/
theorem Memory.wf_iff (rom : Vector Byte 80) (m : Memory) :
    Memory.wf rom m = true ↔
      m.Pairwise (fun c d => c.1 < d.1) ∧ ∀ c ∈ m, c.1 < 4096 ∧ c.2 ≠ Memory.initial rom c.1 := by
  induction m with
  | nil => simp [Memory.wf]
  | cons c rest ih =>
    cases rest with
    | nil => simp [Memory.wf]
    | cons d rest =>
      simp only [Memory.wf, Bool.and_eq_true, decide_eq_true_eq, bne_iff_ne, ih]
      constructor
      · rintro ⟨⟨hcd, hc⟩, hp, hall⟩
        refine ⟨List.pairwise_cons.2 ⟨?_, hp⟩, ?_⟩
        · intro e he
          rcases List.mem_cons.1 he with rfl | he
          · exact hcd
          · exact Nat.lt_trans hcd ((List.pairwise_cons.1 hp).1 e he)
        · intro e he
          rcases List.mem_cons.1 he with rfl | he
          · exact ⟨Nat.lt_trans hcd (hall d (by simp)).1, hc⟩
          · exact hall e he
      · rintro ⟨hp, hall⟩
        have hp' := List.pairwise_cons.1 hp
        exact ⟨⟨hp'.1 d (by simp), (hall c (by simp)).2⟩, hp'.2,
          fun e he => hall e (List.mem_cons_of_mem _ he)⟩

theorem Memory.mem_insert {m : Memory} {a : Nat} {v : Byte} {c : Host.Cell}
    (h : c ∈ Memory.insert m a v) : c = (a, v) ∨ c ∈ m := by
  induction m with
  | nil => simpa [Memory.insert] using h
  | cons d rest ih =>
    by_cases hlt : a < d.1
    · simpa [Memory.insert, hlt] using h
    · simp only [Memory.insert, hlt, if_false, List.mem_cons] at h
      rcases h with h | h
      · exact .inr (by simp [h])
      · rcases ih h with h | h
        · exact .inl h
        · exact .inr (by simp [h])

theorem Memory.pairwise_insert {m : Memory} {a : Nat} {v : Byte}
    (h : m.Pairwise (fun c d => c.1 < d.1)) (ha : ∀ c ∈ m, c.1 ≠ a) :
    (Memory.insert m a v).Pairwise (fun c d => c.1 < d.1) := by
  induction m with
  | nil => simp [Memory.insert]
  | cons d rest ih =>
    have h' := List.pairwise_cons.1 h
    by_cases hlt : a < d.1
    · simp only [Memory.insert, hlt, if_true]
      refine List.pairwise_cons.2 ⟨?_, h⟩
      intro c hc
      rcases List.mem_cons.1 hc with rfl | hc
      · exact hlt
      · exact Nat.lt_trans hlt (h'.1 c hc)
    · simp only [Memory.insert, hlt, if_false]
      refine List.pairwise_cons.2 ⟨?_, ih h'.2 fun c hc => ha c (by simp [hc])⟩
      intro c hc
      rcases Memory.mem_insert hc with rfl | hc
      · have := ha d (by simp)
        simp only
        omega
      · exact h'.1 c hc

/-- A write of an address in range keeps the canonical form. -/
theorem Memory.write_wf {rom : Vector Byte 80} {m : Memory} {a : Nat} {v : Byte}
    (h : Memory.wf rom m = true) (ha : a < 4096) : Memory.wf rom (Memory.write rom m a v) = true := by
  rw [Memory.wf_iff] at h ⊢
  have hpe : (Memory.erase m a).Pairwise (fun c d => c.1 < d.1) := h.1.filter _
  have hme : ∀ c ∈ Memory.erase m a, c ∈ m ∧ c.1 ≠ a := by
    intro c hc
    simpa [Memory.erase] using hc
  unfold Memory.write
  split
  · exact ⟨hpe, fun c hc => h.2 c (hme c hc).1⟩
  · next hv =>
    refine ⟨Memory.pairwise_insert hpe fun c hc => (hme c hc).2, ?_⟩
    intro c hc
    rcases Memory.mem_insert hc with rfl | hc
    · exact ⟨ha, hv⟩
    · exact h.2 c (hme c hc).1

/-- A block store in range keeps the canonical form. -/
theorem Memory.writeBytes_wf {rom : Vector Byte 80} {vs : List Byte} {m : Memory} {a : Nat}
    (h : Memory.wf rom m = true) (ha : a + vs.length ≤ 4096) :
    Memory.wf rom (Memory.writeBytes rom m a vs) = true := by
  induction vs generalizing m a with
  | nil => exact h
  | cons v vs ih =>
    simp only [List.length_cons] at ha
    exact ih (Memory.write_wf h (by omega)) (by omega)

end Sys2Proof.Machine
end

