-- ==== Sys2Proof/Laws/State.lean ====
section
/-! SUPPORT. One lemma per field per state update: what it writes, and what it leaves alone. -/

namespace Sys2Proof.Machine

section setReg
variable (s : State) (x : Nibble) (a : Byte)

@[simp] theorem State.setReg_mem : (s.setReg x a).mem = s.mem := rfl
@[simp] theorem State.setReg_v : (s.setReg x a).v = s.v.set x.toNat a x.isLt := rfl
@[simp] theorem State.setReg_i : (s.setReg x a).i = s.i := rfl
@[simp] theorem State.setReg_pc : (s.setReg x a).pc = s.pc := rfl
@[simp] theorem State.setReg_stack : (s.setReg x a).stack = s.stack := rfl
@[simp] theorem State.setReg_dt : (s.setReg x a).dt = s.dt := rfl
@[simp] theorem State.setReg_st : (s.setReg x a).st = s.st := rfl
@[simp] theorem State.setReg_fb : (s.setReg x a).fb = s.fb := rfl
@[simp] theorem State.setReg_keys : (s.setReg x a).keys = s.keys := rfl
@[simp] theorem State.setReg_es : (s.setReg x a).es = s.es := rfl
@[simp] theorem State.setReg_waitX : (s.setReg x a).waitX = s.waitX := rfl
@[simp] theorem State.setReg_haltCause : (s.setReg x a).haltCause = s.haltCause := rfl
@[simp] theorem State.setReg_faultCode : (s.setReg x a).faultCode = s.faultCode := rfl
@[simp] theorem State.setReg_faultPc : (s.setReg x a).faultPc = s.faultPc := rfl
@[simp] theorem State.setReg_faultOp : (s.setReg x a).faultOp = s.faultOp := rfl
@[simp] theorem State.setReg_cfg : (s.setReg x a).cfg = s.cfg := rfl
@[simp] theorem State.setReg_inputs : (s.setReg x a).inputs = s.inputs := rfl
@[simp] theorem State.setReg_drawn : (s.setReg x a).drawn = s.drawn := rfl
@[simp] theorem State.setReg_rand : (s.setReg x a).rand = s.rand := rfl
@[simp] theorem State.setReg_pixel (r : Fin 32) (c : Fin 64) : (s.setReg x a).pixel r c = s.pixel r c := rfl
@[simp] theorem State.setReg_key (j : Nibble) : (s.setReg x a).key j = s.key j := rfl
@[simp] theorem State.setReg_readByte (n : Nat) : (s.setReg x a).readByte n = s.readByte n := rfl

end setReg

section setFlag
variable (s : State) (b : Bool)

@[simp] theorem State.setFlag_mem : (s.setFlag b).mem = s.mem := rfl
@[simp] theorem State.setFlag_v : (s.setFlag b).v = (s.setReg 0xF (if b then 1 else 0)).v := rfl
@[simp] theorem State.setFlag_i : (s.setFlag b).i = s.i := rfl
@[simp] theorem State.setFlag_pc : (s.setFlag b).pc = s.pc := rfl
@[simp] theorem State.setFlag_stack : (s.setFlag b).stack = s.stack := rfl
@[simp] theorem State.setFlag_dt : (s.setFlag b).dt = s.dt := rfl
@[simp] theorem State.setFlag_st : (s.setFlag b).st = s.st := rfl
@[simp] theorem State.setFlag_fb : (s.setFlag b).fb = s.fb := rfl
@[simp] theorem State.setFlag_keys : (s.setFlag b).keys = s.keys := rfl
@[simp] theorem State.setFlag_es : (s.setFlag b).es = s.es := rfl
@[simp] theorem State.setFlag_waitX : (s.setFlag b).waitX = s.waitX := rfl
@[simp] theorem State.setFlag_haltCause : (s.setFlag b).haltCause = s.haltCause := rfl
@[simp] theorem State.setFlag_faultCode : (s.setFlag b).faultCode = s.faultCode := rfl
@[simp] theorem State.setFlag_faultPc : (s.setFlag b).faultPc = s.faultPc := rfl
@[simp] theorem State.setFlag_faultOp : (s.setFlag b).faultOp = s.faultOp := rfl
@[simp] theorem State.setFlag_cfg : (s.setFlag b).cfg = s.cfg := rfl
@[simp] theorem State.setFlag_inputs : (s.setFlag b).inputs = s.inputs := rfl
@[simp] theorem State.setFlag_drawn : (s.setFlag b).drawn = s.drawn := rfl
@[simp] theorem State.setFlag_rand : (s.setFlag b).rand = s.rand := rfl
@[simp] theorem State.setFlag_pixel (r : Fin 32) (c : Fin 64) : (s.setFlag b).pixel r c = s.pixel r c := rfl
@[simp] theorem State.setFlag_key (j : Nibble) : (s.setFlag b).key j = s.key j := rfl
@[simp] theorem State.setFlag_readByte (n : Nat) : (s.setFlag b).readByte n = s.readByte n := rfl

end setFlag

section setRegs
variable (s : State) (vs : List Byte)

@[simp] theorem State.setRegs_mem : (s.setRegs vs).mem = s.mem := rfl
@[simp] theorem State.setRegs_v : (s.setRegs vs).v = loadRegs s.v 0 vs := rfl
@[simp] theorem State.setRegs_i : (s.setRegs vs).i = s.i := rfl
@[simp] theorem State.setRegs_pc : (s.setRegs vs).pc = s.pc := rfl
@[simp] theorem State.setRegs_stack : (s.setRegs vs).stack = s.stack := rfl
@[simp] theorem State.setRegs_dt : (s.setRegs vs).dt = s.dt := rfl
@[simp] theorem State.setRegs_st : (s.setRegs vs).st = s.st := rfl
@[simp] theorem State.setRegs_fb : (s.setRegs vs).fb = s.fb := rfl
@[simp] theorem State.setRegs_keys : (s.setRegs vs).keys = s.keys := rfl
@[simp] theorem State.setRegs_es : (s.setRegs vs).es = s.es := rfl
@[simp] theorem State.setRegs_waitX : (s.setRegs vs).waitX = s.waitX := rfl
@[simp] theorem State.setRegs_haltCause : (s.setRegs vs).haltCause = s.haltCause := rfl
@[simp] theorem State.setRegs_faultCode : (s.setRegs vs).faultCode = s.faultCode := rfl
@[simp] theorem State.setRegs_faultPc : (s.setRegs vs).faultPc = s.faultPc := rfl
@[simp] theorem State.setRegs_faultOp : (s.setRegs vs).faultOp = s.faultOp := rfl
@[simp] theorem State.setRegs_cfg : (s.setRegs vs).cfg = s.cfg := rfl
@[simp] theorem State.setRegs_inputs : (s.setRegs vs).inputs = s.inputs := rfl
@[simp] theorem State.setRegs_drawn : (s.setRegs vs).drawn = s.drawn := rfl
@[simp] theorem State.setRegs_rand : (s.setRegs vs).rand = s.rand := rfl
@[simp] theorem State.setRegs_pixel (r : Fin 32) (c : Fin 64) : (s.setRegs vs).pixel r c = s.pixel r c := rfl
@[simp] theorem State.setRegs_key (j : Nibble) : (s.setRegs vs).key j = s.key j := rfl
@[simp] theorem State.setRegs_readByte (n : Nat) : (s.setRegs vs).readByte n = s.readByte n := rfl

end setRegs

section setI
variable (s : State) (a : Word)

@[simp] theorem State.setI_mem : (s.setI a).mem = s.mem := rfl
@[simp] theorem State.setI_v : (s.setI a).v = s.v := rfl
@[simp] theorem State.setI_i : (s.setI a).i = a := rfl
@[simp] theorem State.setI_pc : (s.setI a).pc = s.pc := rfl
@[simp] theorem State.setI_stack : (s.setI a).stack = s.stack := rfl
@[simp] theorem State.setI_dt : (s.setI a).dt = s.dt := rfl
@[simp] theorem State.setI_st : (s.setI a).st = s.st := rfl
@[simp] theorem State.setI_fb : (s.setI a).fb = s.fb := rfl
@[simp] theorem State.setI_keys : (s.setI a).keys = s.keys := rfl
@[simp] theorem State.setI_es : (s.setI a).es = s.es := rfl
@[simp] theorem State.setI_waitX : (s.setI a).waitX = s.waitX := rfl
@[simp] theorem State.setI_haltCause : (s.setI a).haltCause = s.haltCause := rfl
@[simp] theorem State.setI_faultCode : (s.setI a).faultCode = s.faultCode := rfl
@[simp] theorem State.setI_faultPc : (s.setI a).faultPc = s.faultPc := rfl
@[simp] theorem State.setI_faultOp : (s.setI a).faultOp = s.faultOp := rfl
@[simp] theorem State.setI_cfg : (s.setI a).cfg = s.cfg := rfl
@[simp] theorem State.setI_inputs : (s.setI a).inputs = s.inputs := rfl
@[simp] theorem State.setI_drawn : (s.setI a).drawn = s.drawn := rfl
@[simp] theorem State.setI_rand : (s.setI a).rand = s.rand := rfl
@[simp] theorem State.setI_reg (y : Nibble) : (s.setI a).reg y = s.reg y := rfl
@[simp] theorem State.setI_pixel (r : Fin 32) (c : Fin 64) : (s.setI a).pixel r c = s.pixel r c := rfl
@[simp] theorem State.setI_key (j : Nibble) : (s.setI a).key j = s.key j := rfl
@[simp] theorem State.setI_readByte (n : Nat) : (s.setI a).readByte n = s.readByte n := rfl

end setI

section setDt
variable (s : State) (a : Byte)

@[simp] theorem State.setDt_mem : (s.setDt a).mem = s.mem := rfl
@[simp] theorem State.setDt_v : (s.setDt a).v = s.v := rfl
@[simp] theorem State.setDt_i : (s.setDt a).i = s.i := rfl
@[simp] theorem State.setDt_pc : (s.setDt a).pc = s.pc := rfl
@[simp] theorem State.setDt_stack : (s.setDt a).stack = s.stack := rfl
@[simp] theorem State.setDt_dt : (s.setDt a).dt = a := rfl
@[simp] theorem State.setDt_st : (s.setDt a).st = s.st := rfl
@[simp] theorem State.setDt_fb : (s.setDt a).fb = s.fb := rfl
@[simp] theorem State.setDt_keys : (s.setDt a).keys = s.keys := rfl
@[simp] theorem State.setDt_es : (s.setDt a).es = s.es := rfl
@[simp] theorem State.setDt_waitX : (s.setDt a).waitX = s.waitX := rfl
@[simp] theorem State.setDt_haltCause : (s.setDt a).haltCause = s.haltCause := rfl
@[simp] theorem State.setDt_faultCode : (s.setDt a).faultCode = s.faultCode := rfl
@[simp] theorem State.setDt_faultPc : (s.setDt a).faultPc = s.faultPc := rfl
@[simp] theorem State.setDt_faultOp : (s.setDt a).faultOp = s.faultOp := rfl
@[simp] theorem State.setDt_cfg : (s.setDt a).cfg = s.cfg := rfl
@[simp] theorem State.setDt_inputs : (s.setDt a).inputs = s.inputs := rfl
@[simp] theorem State.setDt_drawn : (s.setDt a).drawn = s.drawn := rfl
@[simp] theorem State.setDt_rand : (s.setDt a).rand = s.rand := rfl
@[simp] theorem State.setDt_reg (y : Nibble) : (s.setDt a).reg y = s.reg y := rfl
@[simp] theorem State.setDt_pixel (r : Fin 32) (c : Fin 64) : (s.setDt a).pixel r c = s.pixel r c := rfl
@[simp] theorem State.setDt_key (j : Nibble) : (s.setDt a).key j = s.key j := rfl
@[simp] theorem State.setDt_readByte (n : Nat) : (s.setDt a).readByte n = s.readByte n := rfl

end setDt

section setSt
variable (s : State) (a : Byte)

@[simp] theorem State.setSt_mem : (s.setSt a).mem = s.mem := rfl
@[simp] theorem State.setSt_v : (s.setSt a).v = s.v := rfl
@[simp] theorem State.setSt_i : (s.setSt a).i = s.i := rfl
@[simp] theorem State.setSt_pc : (s.setSt a).pc = s.pc := rfl
@[simp] theorem State.setSt_stack : (s.setSt a).stack = s.stack := rfl
@[simp] theorem State.setSt_dt : (s.setSt a).dt = s.dt := rfl
@[simp] theorem State.setSt_st : (s.setSt a).st = a := rfl
@[simp] theorem State.setSt_fb : (s.setSt a).fb = s.fb := rfl
@[simp] theorem State.setSt_keys : (s.setSt a).keys = s.keys := rfl
@[simp] theorem State.setSt_es : (s.setSt a).es = s.es := rfl
@[simp] theorem State.setSt_waitX : (s.setSt a).waitX = s.waitX := rfl
@[simp] theorem State.setSt_haltCause : (s.setSt a).haltCause = s.haltCause := rfl
@[simp] theorem State.setSt_faultCode : (s.setSt a).faultCode = s.faultCode := rfl
@[simp] theorem State.setSt_faultPc : (s.setSt a).faultPc = s.faultPc := rfl
@[simp] theorem State.setSt_faultOp : (s.setSt a).faultOp = s.faultOp := rfl
@[simp] theorem State.setSt_cfg : (s.setSt a).cfg = s.cfg := rfl
@[simp] theorem State.setSt_inputs : (s.setSt a).inputs = s.inputs := rfl
@[simp] theorem State.setSt_drawn : (s.setSt a).drawn = s.drawn := rfl
@[simp] theorem State.setSt_rand : (s.setSt a).rand = s.rand := rfl
@[simp] theorem State.setSt_reg (y : Nibble) : (s.setSt a).reg y = s.reg y := rfl
@[simp] theorem State.setSt_pixel (r : Fin 32) (c : Fin 64) : (s.setSt a).pixel r c = s.pixel r c := rfl
@[simp] theorem State.setSt_key (j : Nibble) : (s.setSt a).key j = s.key j := rfl
@[simp] theorem State.setSt_readByte (n : Nat) : (s.setSt a).readByte n = s.readByte n := rfl

end setSt

section setPc
variable (s : State) (a : Word)

@[simp] theorem State.setPc_mem : (s.setPc a).mem = s.mem := rfl
@[simp] theorem State.setPc_v : (s.setPc a).v = s.v := rfl
@[simp] theorem State.setPc_i : (s.setPc a).i = s.i := rfl
@[simp] theorem State.setPc_pc : (s.setPc a).pc = a := rfl
@[simp] theorem State.setPc_stack : (s.setPc a).stack = s.stack := rfl
@[simp] theorem State.setPc_dt : (s.setPc a).dt = s.dt := rfl
@[simp] theorem State.setPc_st : (s.setPc a).st = s.st := rfl
@[simp] theorem State.setPc_fb : (s.setPc a).fb = s.fb := rfl
@[simp] theorem State.setPc_keys : (s.setPc a).keys = s.keys := rfl
@[simp] theorem State.setPc_es : (s.setPc a).es = s.es := rfl
@[simp] theorem State.setPc_waitX : (s.setPc a).waitX = s.waitX := rfl
@[simp] theorem State.setPc_haltCause : (s.setPc a).haltCause = s.haltCause := rfl
@[simp] theorem State.setPc_faultCode : (s.setPc a).faultCode = s.faultCode := rfl
@[simp] theorem State.setPc_faultPc : (s.setPc a).faultPc = s.faultPc := rfl
@[simp] theorem State.setPc_faultOp : (s.setPc a).faultOp = s.faultOp := rfl
@[simp] theorem State.setPc_cfg : (s.setPc a).cfg = s.cfg := rfl
@[simp] theorem State.setPc_inputs : (s.setPc a).inputs = s.inputs := rfl
@[simp] theorem State.setPc_drawn : (s.setPc a).drawn = s.drawn := rfl
@[simp] theorem State.setPc_rand : (s.setPc a).rand = s.rand := rfl
@[simp] theorem State.setPc_reg (y : Nibble) : (s.setPc a).reg y = s.reg y := rfl
@[simp] theorem State.setPc_pixel (r : Fin 32) (c : Fin 64) : (s.setPc a).pixel r c = s.pixel r c := rfl
@[simp] theorem State.setPc_key (j : Nibble) : (s.setPc a).key j = s.key j := rfl
@[simp] theorem State.setPc_readByte (n : Nat) : (s.setPc a).readByte n = s.readByte n := rfl

end setPc

section advance
variable (s : State)

@[simp] theorem State.advance_mem : (s.advance).mem = s.mem := rfl
@[simp] theorem State.advance_v : (s.advance).v = s.v := rfl
@[simp] theorem State.advance_i : (s.advance).i = s.i := rfl
@[simp] theorem State.advance_pc : (s.advance).pc = s.pc + 2 := rfl
@[simp] theorem State.advance_stack : (s.advance).stack = s.stack := rfl
@[simp] theorem State.advance_dt : (s.advance).dt = s.dt := rfl
@[simp] theorem State.advance_st : (s.advance).st = s.st := rfl
@[simp] theorem State.advance_fb : (s.advance).fb = s.fb := rfl
@[simp] theorem State.advance_keys : (s.advance).keys = s.keys := rfl
@[simp] theorem State.advance_es : (s.advance).es = s.es := rfl
@[simp] theorem State.advance_waitX : (s.advance).waitX = s.waitX := rfl
@[simp] theorem State.advance_haltCause : (s.advance).haltCause = s.haltCause := rfl
@[simp] theorem State.advance_faultCode : (s.advance).faultCode = s.faultCode := rfl
@[simp] theorem State.advance_faultPc : (s.advance).faultPc = s.faultPc := rfl
@[simp] theorem State.advance_faultOp : (s.advance).faultOp = s.faultOp := rfl
@[simp] theorem State.advance_cfg : (s.advance).cfg = s.cfg := rfl
@[simp] theorem State.advance_inputs : (s.advance).inputs = s.inputs := rfl
@[simp] theorem State.advance_drawn : (s.advance).drawn = s.drawn := rfl
@[simp] theorem State.advance_rand : (s.advance).rand = s.rand := rfl
@[simp] theorem State.advance_reg (y : Nibble) : (s.advance).reg y = s.reg y := rfl
@[simp] theorem State.advance_pixel (r : Fin 32) (c : Fin 64) : (s.advance).pixel r c = s.pixel r c := rfl
@[simp] theorem State.advance_key (j : Nibble) : (s.advance).key j = s.key j := rfl
@[simp] theorem State.advance_readByte (n : Nat) : (s.advance).readByte n = s.readByte n := rfl

end advance

section skipIf
variable (s : State) (b : Bool)

@[simp] theorem State.skipIf_mem : (s.skipIf b).mem = s.mem := rfl
@[simp] theorem State.skipIf_v : (s.skipIf b).v = s.v := rfl
@[simp] theorem State.skipIf_i : (s.skipIf b).i = s.i := rfl
@[simp] theorem State.skipIf_pc : (s.skipIf b).pc = if b then s.pc + 4 else s.pc + 2 := rfl
@[simp] theorem State.skipIf_stack : (s.skipIf b).stack = s.stack := rfl
@[simp] theorem State.skipIf_dt : (s.skipIf b).dt = s.dt := rfl
@[simp] theorem State.skipIf_st : (s.skipIf b).st = s.st := rfl
@[simp] theorem State.skipIf_fb : (s.skipIf b).fb = s.fb := rfl
@[simp] theorem State.skipIf_keys : (s.skipIf b).keys = s.keys := rfl
@[simp] theorem State.skipIf_es : (s.skipIf b).es = s.es := rfl
@[simp] theorem State.skipIf_waitX : (s.skipIf b).waitX = s.waitX := rfl
@[simp] theorem State.skipIf_haltCause : (s.skipIf b).haltCause = s.haltCause := rfl
@[simp] theorem State.skipIf_faultCode : (s.skipIf b).faultCode = s.faultCode := rfl
@[simp] theorem State.skipIf_faultPc : (s.skipIf b).faultPc = s.faultPc := rfl
@[simp] theorem State.skipIf_faultOp : (s.skipIf b).faultOp = s.faultOp := rfl
@[simp] theorem State.skipIf_cfg : (s.skipIf b).cfg = s.cfg := rfl
@[simp] theorem State.skipIf_inputs : (s.skipIf b).inputs = s.inputs := rfl
@[simp] theorem State.skipIf_drawn : (s.skipIf b).drawn = s.drawn := rfl
@[simp] theorem State.skipIf_rand : (s.skipIf b).rand = s.rand := rfl
@[simp] theorem State.skipIf_reg (y : Nibble) : (s.skipIf b).reg y = s.reg y := rfl
@[simp] theorem State.skipIf_pixel (r : Fin 32) (c : Fin 64) : (s.skipIf b).pixel r c = s.pixel r c := rfl
@[simp] theorem State.skipIf_key (j : Nibble) : (s.skipIf b).key j = s.key j := rfl
@[simp] theorem State.skipIf_readByte (n : Nat) : (s.skipIf b).readByte n = s.readByte n := rfl

end skipIf

section setFb
variable (s : State) (fb : Framebuffer)

@[simp] theorem State.setFb_mem : (s.setFb fb).mem = s.mem := rfl
@[simp] theorem State.setFb_v : (s.setFb fb).v = s.v := rfl
@[simp] theorem State.setFb_i : (s.setFb fb).i = s.i := rfl
@[simp] theorem State.setFb_pc : (s.setFb fb).pc = s.pc := rfl
@[simp] theorem State.setFb_stack : (s.setFb fb).stack = s.stack := rfl
@[simp] theorem State.setFb_dt : (s.setFb fb).dt = s.dt := rfl
@[simp] theorem State.setFb_st : (s.setFb fb).st = s.st := rfl
@[simp] theorem State.setFb_fb : (s.setFb fb).fb = fb := rfl
@[simp] theorem State.setFb_keys : (s.setFb fb).keys = s.keys := rfl
@[simp] theorem State.setFb_es : (s.setFb fb).es = s.es := rfl
@[simp] theorem State.setFb_waitX : (s.setFb fb).waitX = s.waitX := rfl
@[simp] theorem State.setFb_haltCause : (s.setFb fb).haltCause = s.haltCause := rfl
@[simp] theorem State.setFb_faultCode : (s.setFb fb).faultCode = s.faultCode := rfl
@[simp] theorem State.setFb_faultPc : (s.setFb fb).faultPc = s.faultPc := rfl
@[simp] theorem State.setFb_faultOp : (s.setFb fb).faultOp = s.faultOp := rfl
@[simp] theorem State.setFb_cfg : (s.setFb fb).cfg = s.cfg := rfl
@[simp] theorem State.setFb_inputs : (s.setFb fb).inputs = s.inputs := rfl
@[simp] theorem State.setFb_drawn : (s.setFb fb).drawn = s.drawn := rfl
@[simp] theorem State.setFb_rand : (s.setFb fb).rand = s.rand := rfl
@[simp] theorem State.setFb_reg (y : Nibble) : (s.setFb fb).reg y = s.reg y := rfl
@[simp] theorem State.setFb_key (j : Nibble) : (s.setFb fb).key j = s.key j := rfl
@[simp] theorem State.setFb_readByte (n : Nat) : (s.setFb fb).readByte n = s.readByte n := rfl
@[simp] theorem State.setFb_pixel (r : Fin 32) (c : Fin 64) : (s.setFb fb).pixel r c = Framebuffer.pixel fb r c := rfl

end setFb

section setKey
variable (s : State) (k : Nibble) (b : Bool)

@[simp] theorem State.setKey_mem : (s.setKey k b).mem = s.mem := rfl
@[simp] theorem State.setKey_v : (s.setKey k b).v = s.v := rfl
@[simp] theorem State.setKey_i : (s.setKey k b).i = s.i := rfl
@[simp] theorem State.setKey_pc : (s.setKey k b).pc = s.pc := rfl
@[simp] theorem State.setKey_stack : (s.setKey k b).stack = s.stack := rfl
@[simp] theorem State.setKey_dt : (s.setKey k b).dt = s.dt := rfl
@[simp] theorem State.setKey_st : (s.setKey k b).st = s.st := rfl
@[simp] theorem State.setKey_fb : (s.setKey k b).fb = s.fb := rfl
@[simp] theorem State.setKey_keys : (s.setKey k b).keys = s.keys.set k.toNat b k.isLt := rfl
@[simp] theorem State.setKey_es : (s.setKey k b).es = s.es := rfl
@[simp] theorem State.setKey_waitX : (s.setKey k b).waitX = s.waitX := rfl
@[simp] theorem State.setKey_haltCause : (s.setKey k b).haltCause = s.haltCause := rfl
@[simp] theorem State.setKey_faultCode : (s.setKey k b).faultCode = s.faultCode := rfl
@[simp] theorem State.setKey_faultPc : (s.setKey k b).faultPc = s.faultPc := rfl
@[simp] theorem State.setKey_faultOp : (s.setKey k b).faultOp = s.faultOp := rfl
@[simp] theorem State.setKey_cfg : (s.setKey k b).cfg = s.cfg := rfl
@[simp] theorem State.setKey_inputs : (s.setKey k b).inputs = s.inputs := rfl
@[simp] theorem State.setKey_drawn : (s.setKey k b).drawn = s.drawn := rfl
@[simp] theorem State.setKey_rand : (s.setKey k b).rand = s.rand := rfl
@[simp] theorem State.setKey_reg (y : Nibble) : (s.setKey k b).reg y = s.reg y := rfl
@[simp] theorem State.setKey_pixel (r : Fin 32) (c : Fin 64) : (s.setKey k b).pixel r c = s.pixel r c := rfl
@[simp] theorem State.setKey_readByte (n : Nat) : (s.setKey k b).readByte n = s.readByte n := rfl

end setKey

section enterWait
variable (s : State) (x : Nibble)

@[simp] theorem State.enterWait_mem : (s.enterWait x).mem = s.mem := rfl
@[simp] theorem State.enterWait_v : (s.enterWait x).v = s.v := rfl
@[simp] theorem State.enterWait_i : (s.enterWait x).i = s.i := rfl
@[simp] theorem State.enterWait_pc : (s.enterWait x).pc = s.pc := rfl
@[simp] theorem State.enterWait_stack : (s.enterWait x).stack = s.stack := rfl
@[simp] theorem State.enterWait_dt : (s.enterWait x).dt = s.dt := rfl
@[simp] theorem State.enterWait_st : (s.enterWait x).st = s.st := rfl
@[simp] theorem State.enterWait_fb : (s.enterWait x).fb = s.fb := rfl
@[simp] theorem State.enterWait_keys : (s.enterWait x).keys = s.keys := rfl
@[simp] theorem State.enterWait_es : (s.enterWait x).es = .waitKey := rfl
@[simp] theorem State.enterWait_waitX : (s.enterWait x).waitX = x := rfl
@[simp] theorem State.enterWait_haltCause : (s.enterWait x).haltCause = s.haltCause := rfl
@[simp] theorem State.enterWait_faultCode : (s.enterWait x).faultCode = s.faultCode := rfl
@[simp] theorem State.enterWait_faultPc : (s.enterWait x).faultPc = s.faultPc := rfl
@[simp] theorem State.enterWait_faultOp : (s.enterWait x).faultOp = s.faultOp := rfl
@[simp] theorem State.enterWait_cfg : (s.enterWait x).cfg = s.cfg := rfl
@[simp] theorem State.enterWait_inputs : (s.enterWait x).inputs = s.inputs := rfl
@[simp] theorem State.enterWait_drawn : (s.enterWait x).drawn = s.drawn := rfl
@[simp] theorem State.enterWait_rand : (s.enterWait x).rand = s.rand := rfl
@[simp] theorem State.enterWait_reg (y : Nibble) : (s.enterWait x).reg y = s.reg y := rfl
@[simp] theorem State.enterWait_pixel (r : Fin 32) (c : Fin 64) : (s.enterWait x).pixel r c = s.pixel r c := rfl
@[simp] theorem State.enterWait_key (j : Nibble) : (s.enterWait x).key j = s.key j := rfl
@[simp] theorem State.enterWait_readByte (n : Nat) : (s.enterWait x).readByte n = s.readByte n := rfl

end enterWait

section completeWait
variable (s : State) (k : Nibble)

@[simp] theorem State.completeWait_mem : (s.completeWait k).mem = s.mem := rfl
@[simp] theorem State.completeWait_v : (s.completeWait k).v = (s.setReg s.waitX (k.setWidth 8)).v := rfl
@[simp] theorem State.completeWait_i : (s.completeWait k).i = s.i := rfl
@[simp] theorem State.completeWait_pc : (s.completeWait k).pc = s.pc + 2 := rfl
@[simp] theorem State.completeWait_stack : (s.completeWait k).stack = s.stack := rfl
@[simp] theorem State.completeWait_dt : (s.completeWait k).dt = s.dt := rfl
@[simp] theorem State.completeWait_st : (s.completeWait k).st = s.st := rfl
@[simp] theorem State.completeWait_fb : (s.completeWait k).fb = s.fb := rfl
@[simp] theorem State.completeWait_keys : (s.completeWait k).keys = s.keys := rfl
@[simp] theorem State.completeWait_es : (s.completeWait k).es = .run := rfl
@[simp] theorem State.completeWait_waitX : (s.completeWait k).waitX = s.waitX := rfl
@[simp] theorem State.completeWait_haltCause : (s.completeWait k).haltCause = s.haltCause := rfl
@[simp] theorem State.completeWait_faultCode : (s.completeWait k).faultCode = s.faultCode := rfl
@[simp] theorem State.completeWait_faultPc : (s.completeWait k).faultPc = s.faultPc := rfl
@[simp] theorem State.completeWait_faultOp : (s.completeWait k).faultOp = s.faultOp := rfl
@[simp] theorem State.completeWait_cfg : (s.completeWait k).cfg = s.cfg := rfl
@[simp] theorem State.completeWait_inputs : (s.completeWait k).inputs = s.inputs := rfl
@[simp] theorem State.completeWait_drawn : (s.completeWait k).drawn = s.drawn := rfl
@[simp] theorem State.completeWait_rand : (s.completeWait k).rand = s.rand := rfl
@[simp] theorem State.completeWait_pixel (r : Fin 32) (c : Fin 64) : (s.completeWait k).pixel r c = s.pixel r c := rfl
@[simp] theorem State.completeWait_key (j : Nibble) : (s.completeWait k).key j = s.key j := rfl
@[simp] theorem State.completeWait_readByte (n : Nat) : (s.completeWait k).readByte n = s.readByte n := rfl

end completeWait

section quit
variable (s : State)

@[simp] theorem State.quit_mem : (s.quit).mem = s.mem := rfl
@[simp] theorem State.quit_v : (s.quit).v = s.v := rfl
@[simp] theorem State.quit_i : (s.quit).i = s.i := rfl
@[simp] theorem State.quit_pc : (s.quit).pc = s.pc := rfl
@[simp] theorem State.quit_stack : (s.quit).stack = s.stack := rfl
@[simp] theorem State.quit_dt : (s.quit).dt = s.dt := rfl
@[simp] theorem State.quit_st : (s.quit).st = s.st := rfl
@[simp] theorem State.quit_fb : (s.quit).fb = s.fb := rfl
@[simp] theorem State.quit_keys : (s.quit).keys = s.keys := rfl
@[simp] theorem State.quit_es : (s.quit).es = .halted := rfl
@[simp] theorem State.quit_waitX : (s.quit).waitX = s.waitX := rfl
@[simp] theorem State.quit_haltCause : (s.quit).haltCause = .quit := rfl
@[simp] theorem State.quit_faultCode : (s.quit).faultCode = s.faultCode := rfl
@[simp] theorem State.quit_faultPc : (s.quit).faultPc = s.faultPc := rfl
@[simp] theorem State.quit_faultOp : (s.quit).faultOp = s.faultOp := rfl
@[simp] theorem State.quit_cfg : (s.quit).cfg = s.cfg := rfl
@[simp] theorem State.quit_inputs : (s.quit).inputs = s.inputs := rfl
@[simp] theorem State.quit_drawn : (s.quit).drawn = s.drawn := rfl
@[simp] theorem State.quit_rand : (s.quit).rand = s.rand := rfl
@[simp] theorem State.quit_reg (y : Nibble) : (s.quit).reg y = s.reg y := rfl
@[simp] theorem State.quit_pixel (r : Fin 32) (c : Fin 64) : (s.quit).pixel r c = s.pixel r c := rfl
@[simp] theorem State.quit_key (j : Nibble) : (s.quit).key j = s.key j := rfl
@[simp] theorem State.quit_readByte (n : Nat) : (s.quit).readByte n = s.readByte n := rfl

end quit

section raiseFault
variable (s : State) (code : FaultCode) (w : Word)

@[simp] theorem State.raiseFault_mem : (s.raiseFault code w).mem = s.mem := rfl
@[simp] theorem State.raiseFault_v : (s.raiseFault code w).v = s.v := rfl
@[simp] theorem State.raiseFault_i : (s.raiseFault code w).i = s.i := rfl
@[simp] theorem State.raiseFault_pc : (s.raiseFault code w).pc = s.pc := rfl
@[simp] theorem State.raiseFault_stack : (s.raiseFault code w).stack = s.stack := rfl
@[simp] theorem State.raiseFault_dt : (s.raiseFault code w).dt = s.dt := rfl
@[simp] theorem State.raiseFault_st : (s.raiseFault code w).st = s.st := rfl
@[simp] theorem State.raiseFault_fb : (s.raiseFault code w).fb = s.fb := rfl
@[simp] theorem State.raiseFault_keys : (s.raiseFault code w).keys = s.keys := rfl
@[simp] theorem State.raiseFault_es : (s.raiseFault code w).es = .halted := rfl
@[simp] theorem State.raiseFault_waitX : (s.raiseFault code w).waitX = s.waitX := rfl
@[simp] theorem State.raiseFault_haltCause : (s.raiseFault code w).haltCause = .fault := rfl
@[simp] theorem State.raiseFault_faultCode : (s.raiseFault code w).faultCode = code := rfl
@[simp] theorem State.raiseFault_faultPc : (s.raiseFault code w).faultPc = s.pc := rfl
@[simp] theorem State.raiseFault_faultOp : (s.raiseFault code w).faultOp = w := rfl
@[simp] theorem State.raiseFault_cfg : (s.raiseFault code w).cfg = s.cfg := rfl
@[simp] theorem State.raiseFault_inputs : (s.raiseFault code w).inputs = s.inputs := rfl
@[simp] theorem State.raiseFault_drawn : (s.raiseFault code w).drawn = s.drawn := rfl
@[simp] theorem State.raiseFault_rand : (s.raiseFault code w).rand = s.rand := rfl
@[simp] theorem State.raiseFault_reg (y : Nibble) : (s.raiseFault code w).reg y = s.reg y := rfl
@[simp] theorem State.raiseFault_pixel (r : Fin 32) (c : Fin 64) : (s.raiseFault code w).pixel r c = s.pixel r c := rfl
@[simp] theorem State.raiseFault_key (j : Nibble) : (s.raiseFault code w).key j = s.key j := rfl
@[simp] theorem State.raiseFault_readByte (n : Nat) : (s.raiseFault code w).readByte n = s.readByte n := rfl

end raiseFault

section sample
variable (s : State)

@[simp] theorem State.sample_mem : (s.sample).mem = s.mem := rfl
@[simp] theorem State.sample_v : (s.sample).v = s.v := rfl
@[simp] theorem State.sample_i : (s.sample).i = s.i := rfl
@[simp] theorem State.sample_pc : (s.sample).pc = s.pc := rfl
@[simp] theorem State.sample_stack : (s.sample).stack = s.stack := rfl
@[simp] theorem State.sample_dt : (s.sample).dt = s.dt := rfl
@[simp] theorem State.sample_st : (s.sample).st = s.st := rfl
@[simp] theorem State.sample_fb : (s.sample).fb = s.fb := rfl
@[simp] theorem State.sample_keys : (s.sample).keys = s.keys := rfl
@[simp] theorem State.sample_es : (s.sample).es = s.es := rfl
@[simp] theorem State.sample_waitX : (s.sample).waitX = s.waitX := rfl
@[simp] theorem State.sample_haltCause : (s.sample).haltCause = s.haltCause := rfl
@[simp] theorem State.sample_faultCode : (s.sample).faultCode = s.faultCode := rfl
@[simp] theorem State.sample_faultPc : (s.sample).faultPc = s.faultPc := rfl
@[simp] theorem State.sample_faultOp : (s.sample).faultOp = s.faultOp := rfl
@[simp] theorem State.sample_cfg : (s.sample).cfg = s.cfg := rfl
@[simp] theorem State.sample_inputs : (s.sample).inputs = s.inputs.tail := rfl
@[simp] theorem State.sample_drawn : (s.sample).drawn = s.drawn + 1 := rfl
@[simp] theorem State.sample_rand : (s.sample).rand = s.nextInput.rand := rfl
@[simp] theorem State.sample_reg (y : Nibble) : (s.sample).reg y = s.reg y := rfl
@[simp] theorem State.sample_pixel (r : Fin 32) (c : Fin 64) : (s.sample).pixel r c = s.pixel r c := rfl
@[simp] theorem State.sample_key (j : Nibble) : (s.sample).key j = s.key j := rfl
@[simp] theorem State.sample_readByte (n : Nat) : (s.sample).readByte n = s.readByte n := rfl

end sample

end Sys2Proof.Machine
end

