-- ==== Sys2Proof/Laws/Ops.lean ====
section
/-! SUPPORT. One lemma per shared operation, saying what it answers. -/

namespace Sys2Proof.Machine

/-! ### Registers and keys -/

@[simp] theorem State.reg_setReg (s : State) (x y : Nibble) (a : Byte) :
    (s.setReg x a).reg y = if y = x then a else s.reg y := by
  simp only [State.reg, State.setReg, Vector.getElem_set, ← BitVec.toNat_inj, eq_comm]

@[simp] theorem State.reg_setFlag (s : State) (b : Bool) (y : Nibble) :
    (s.setFlag b).reg y = if y = 0xF then (if b then 1 else 0) else s.reg y :=
  State.reg_setReg s 0xF y _

theorem loadRegs_getElem (v : Vector Byte 16) (k : Nat) (vs : List Byte) (j : Nat) (h : j < 16) :
    (loadRegs v k vs)[j] = if k ≤ j then vs[j - k]?.getD v[j] else v[j] := by
  induction vs generalizing v k with
  | nil => simp [loadRegs]
  | cons b bs ih =>
    simp only [loadRegs, ih, Vector.getElem_setIfInBounds]
    rcases Nat.lt_trichotomy k j with hlt | rfl | hgt
    · have e : j - k = j - (k + 1) + 1 := by omega
      simp [show k + 1 ≤ j by omega, show k ≠ j by omega, show k ≤ j by omega, e]
    · simp
    · simp [show ¬ k + 1 ≤ j by omega, show ¬ k ≤ j by omega, show k ≠ j by omega]

@[simp] theorem State.reg_setRegs (s : State) (vs : List Byte) (y : Nibble) :
    (s.setRegs vs).reg y = vs[y.toNat]?.getD (s.reg y) := by
  simp [State.reg, State.setRegs, loadRegs_getElem]

@[simp] theorem State.reg_completeWait (s : State) (k y : Nibble) :
    (s.completeWait k).reg y = if y = s.waitX then k.setWidth 8 else s.reg y :=
  State.reg_setReg s s.waitX y _

@[simp] theorem State.key_setKey (s : State) (k j : Nibble) (b : Bool) :
    (s.setKey k b).key j = if j = k then b else s.key j := by
  simp only [State.key, State.setKey, Vector.getElem_set, ← BitVec.toNat_inj, eq_comm]

/-! ### Memory blocks -/

theorem inRange_iff (base : Word) (m : Nat) :
    inRange base m = true ↔ m = 0 ∨ base.toNat + m - 1 ≤ 0xFFF := by
  simp [inRange]

/-- A block load answers exactly when the block is in range, with the block's bytes. -/
theorem State.loadBytes_eq_some {s : State} {base : Word} {m : Nat} {vs : List Byte} :
    s.loadBytes base m = some vs ↔
      inRange base m = true ∧
        vs = (List.range m).map fun k => Memory.read s.cfg.glyphRom s.mem (base.toNat + k) := by
  unfold State.loadBytes
  split
  · next h => simp only [h, Option.some.injEq, true_and]; exact eq_comm
  · next h => simp [h]

/-- A byte that exists reads as memory holds it. -/
theorem State.readByte_of_le {s : State} {a : Nat} (h : a ≤ 0xFFF) :
    s.readByte a = some (Memory.read s.cfg.glyphRom s.mem a) := if_pos h

/-- A block store answers exactly when the block is in range, and changes memory alone. -/
theorem State.storeBytes_eq_some {s t : State} {base : Word} {vs : List Byte} :
    s.storeBytes base vs = some t ↔
      inRange base vs.length = true ∧
        t = { s with mem := Memory.writeBytes s.cfg.glyphRom s.mem base.toNat vs } := by
  unfold State.storeBytes
  split
  · next h => simp only [h, Option.some.injEq, true_and]; exact eq_comm
  · next h => simp [h]

/-- A read after a block store. -/
theorem State.readByte_storeBytes {s t : State} {base : Word} {vs : List Byte}
    (h : s.storeBytes base vs = some t) (a : Nat) :
    t.readByte a =
      if base.toNat ≤ a ∧ a < base.toNat + vs.length then vs[a - base.toNat]? else s.readByte a := by
  obtain ⟨hr, rfl⟩ := State.storeBytes_eq_some.1 h
  rw [inRange_iff] at hr
  unfold State.readByte
  simp only [Memory.read_writeBytes]
  by_cases hin : base.toNat ≤ a ∧ a < base.toNat + vs.length
  · have : a - base.toNat < vs.length := by omega
    simp [hin, this, show a ≤ 4095 by omega]
  · rw [if_neg hin]
    by_cases hle : base.toNat ≤ a
    · have : vs.length ≤ a - base.toNat := by omega
      simp [hle, this]
    · simp [hle]

/-- A block store keeps the canonical form. -/
theorem State.storeBytes_wf {s t : State} {base : Word} {vs : List Byte}
    (h : s.storeBytes base vs = some t) (hw : Memory.wf s.cfg.glyphRom s.mem = true) :
    Memory.wf t.cfg.glyphRom t.mem = true := by
  obtain ⟨hr, rfl⟩ := State.storeBytes_eq_some.1 h
  rw [inRange_iff] at hr
  cases vs with
  | nil => exact hw
  | cons v vs =>
    simp only [List.length_cons] at hr
    exact Memory.writeBytes_wf hw (by simp only [List.length_cons]; omega)

/-! ### Call stack -/

theorem State.push_eq_some {s t : State} {a : Word} :
    s.push a = some t ↔ s.stackFull = false ∧ t = { s with stack := s.stack ++ [a] } := by
  unfold State.push
  split
  · next h => simp [h]
  · next h => simp only [h, Option.some.injEq, true_and]; exact eq_comm

theorem State.pop_eq_some {s t : State} {a : Word} :
    s.pop = some (a, t) ↔ s.stack.getLast? = some a ∧ t = { s with stack := s.stack.dropLast } := by
  unfold State.pop
  split
  · next b h =>
    simp only [h, Option.some.injEq, Prod.mk.injEq]
    exact and_congr Iff.rfl eq_comm
  · next h => simp [h]

theorem State.pop_eq_none {s : State} : s.pop = none ↔ s.stack = [] := by
  unfold State.pop
  split
  · next b h =>
    have : s.stack ≠ [] := fun e => by simp [e] at h
    simp [this]
  · next h => simpa using h

/-! ### Operands -/

theorem keyIndex_eq_some {a : Byte} {k : Nibble} :
    keyIndex a = some k ↔ a.toNat ≤ 0xF ∧ k = a.setWidth 4 := by
  unfold keyIndex
  split
  · next h => simp [Nat.not_le.2 h]
  · next h => simp only [Nat.le_of_not_lt h, Option.some.injEq, true_and]; exact eq_comm

theorem keyIndex_eq_none {a : Byte} : keyIndex a = none ↔ 0xF < a.toNat := by
  unfold keyIndex
  split <;> simp_all

@[simp] theorem decimalDigits_length (a : Byte) : (decimalDigits a).length = 3 := rfl

@[simp] theorem State.regsUpTo_length (s : State) (x : Nibble) :
    (s.regsUpTo x).length = x.toNat + 1 := by simp [State.regsUpTo]

theorem State.regsUpTo_getElem? (s : State) (x : Nibble) (k : Nat) :
    (s.regsUpTo x)[k]? = if k ≤ x.toNat then some (s.reg (BitVec.ofNat 4 k)) else none := by
  by_cases h : k ≤ x.toNat
  · simp [State.regsUpTo, h, Nat.lt_succ_of_le h]
  · simp [State.regsUpTo, h, Nat.not_lt.2 (Nat.lt_of_not_le h)]

end Sys2Proof.Machine
end

