-- ==== Sys2Proof/Laws/Exec.lean ====
section
/-! SUPPORT. What each instruction with a check of its own can answer: the fault of the check, or its
effect. Every other instruction answers its one next state by definition. -/

namespace Sys2Proof.Machine

variable {s t : State}

theorem execRet_cases {q : Nibble} (h : execRet q s = .next t) :
    t = s.raiseFault .stackUnderflow (encode (.ret q)) ∨
      ∃ a, s.stack.getLast? = some a ∧ t = { s with stack := s.stack.dropLast, pc := a } := by
  unfold execRet at h
  split at h
  · cases h; exact .inl rfl
  · next a s' hp =>
    obtain ⟨ha, rfl⟩ := State.pop_eq_some.1 hp
    cases h; exact .inr ⟨a, ha, rfl⟩

theorem execCall_cases {nnn : Addr12} (h : execCall nnn s = .next t) :
    t = s.raiseFault .stackOverflow (encode (.call nnn)) ∨
      s.stackFull = false ∧
        t = { s with stack := s.stack ++ [s.pc + 2], pc := zextAddr nnn } := by
  unfold execCall at h
  split at h
  · cases h; exact .inl rfl
  · next s' hp =>
    obtain ⟨hf, rfl⟩ := State.push_eq_some.1 hp
    cases h; exact .inr ⟨hf, rfl⟩

theorem execDrw_cases {x y n : Nibble} (h : execDrw x y n s = .next t) :
    t = s.raiseFault .dataOutOfRange (encode (.drw x y n)) ∨
      ∃ rows, s.loadBytes s.i n.toNat = some rows ∧
        t = ((s.setFb (drawSprite s.fb (startRow (s.reg y)) (startColumn (s.reg x)) rows).1).setFlag
          (drawSprite s.fb (startRow (s.reg y)) (startColumn (s.reg x)) rows).2).advance := by
  unfold execDrw at h
  split at h
  · cases h; exact .inl rfl
  · next rows hl => cases h; exact .inr ⟨rows, hl, rfl⟩

theorem execLdB_cases {x : Nibble} (h : execLdB x s = .next t) :
    t = s.raiseFault .dataOutOfRange (encode (.ldB x)) ∨
      ∃ s', s.storeBytes s.i (decimalDigits (s.reg x)) = some s' ∧
        t = { s with mem := s'.mem, pc := s.pc + 2 } := by
  unfold execLdB at h
  split at h
  · cases h; exact .inl rfl
  · next s' hs =>
    obtain ⟨-, rfl⟩ := State.storeBytes_eq_some.1 hs
    cases h; exact .inr ⟨_, hs, rfl⟩

theorem execLdMemVx_cases {x : Nibble} (h : execLdMemVx x s = .next t) :
    t = s.raiseFault .dataOutOfRange (encode (.ldMemVx x)) ∨
      ∃ s', s.storeBytes s.i (s.regsUpTo x) = some s' ∧
        t = { s with mem := s'.mem, pc := s.pc + 2 } := by
  unfold execLdMemVx at h
  split at h
  · cases h; exact .inl rfl
  · next s' hs =>
    obtain ⟨-, rfl⟩ := State.storeBytes_eq_some.1 hs
    cases h; exact .inr ⟨_, hs, rfl⟩

theorem execLdVxMem_cases {x : Nibble} (h : execLdVxMem x s = .next t) :
    t = s.raiseFault .dataOutOfRange (encode (.ldVxMem x)) ∨
      ∃ vs, s.loadBytes s.i (x.toNat + 1) = some vs ∧ t = (s.setRegs vs).advance := by
  unfold execLdVxMem at h
  split at h
  · cases h; exact .inl rfl
  · next vs hl => cases h; exact .inr ⟨vs, hl, rfl⟩

theorem execSkp_cases {x : Nibble} (h : execSkp x s = .next t) :
    t = s.raiseFault .keyOutOfRange (encode (.skp x)) ∨
      ∃ k, keyIndex (s.reg x) = some k ∧ t = s.skipIf (s.key k) := by
  unfold execSkp at h
  split at h
  · cases h; exact .inl rfl
  · next k hk => cases h; exact .inr ⟨k, hk, rfl⟩

theorem execSknp_cases {x : Nibble} (h : execSknp x s = .next t) :
    t = s.raiseFault .keyOutOfRange (encode (.sknp x)) ∨
      ∃ k, keyIndex (s.reg x) = some k ∧ t = s.skipIf (!s.key k) := by
  unfold execSknp at h
  split at h
  · cases h; exact .inl rfl
  · next k hk => cases h; exact .inr ⟨k, hk, rfl⟩

/-- The memory an in-range store leaves is canonical when it was. -/
theorem store_memory_wf {s' : State} {base : Word} {vs : List Byte}
    (h : s.storeBytes base vs = some s') (hw : Memory.wf s.cfg.glyphRom s.mem = true) :
    Memory.wf s.cfg.glyphRom s'.mem = true := by
  have := State.storeBytes_wf h hw
  rwa [(State.storeBytes_eq_some.1 h).2] at this ⊢

end Sys2Proof.Machine
end

