-- ==== Sys2Proof/Laws/PerInstr.lean ====
section
/-! SUPPORT. Laws stated of every instruction, one lemma per constructor. -/

namespace Sys2Proof.Laws.TableRow

/-- The row of spec/opcode_table.json an instruction stands for: its mask and its match. -/
def row : Instr → Word × Word
  | .cls _ => (0xF0FF, 0x00E0)
  | .ret _ => (0xF0FF, 0x00EE)
  | .sys _ => (0xF000, 0x0000)
  | .jp _ => (0xF000, 0x1000)
  | .call _ => (0xF000, 0x2000)
  | .seImm _ _ => (0xF000, 0x3000)
  | .sneImm _ _ => (0xF000, 0x4000)
  | .seReg _ _ => (0xF00F, 0x5000)
  | .ldImm _ _ => (0xF000, 0x6000)
  | .addImm _ _ => (0xF000, 0x7000)
  | .ldReg _ _ => (0xF00F, 0x8000)
  | .orReg _ _ => (0xF00F, 0x8001)
  | .andReg _ _ => (0xF00F, 0x8002)
  | .xorReg _ _ => (0xF00F, 0x8003)
  | .addReg _ _ => (0xF00F, 0x8004)
  | .sub _ _ => (0xF00F, 0x8005)
  | .shr _ _ => (0xF00F, 0x8006)
  | .subn _ _ => (0xF00F, 0x8007)
  | .shl _ _ => (0xF00F, 0x800E)
  | .sneReg _ _ => (0xF00F, 0x9000)
  | .ldI _ => (0xF000, 0xA000)
  | .jpV0 _ => (0xF000, 0xB000)
  | .rnd _ _ => (0xF000, 0xC000)
  | .drw _ _ _ => (0xF000, 0xD000)
  | .skp _ => (0xF0FF, 0xE09E)
  | .sknp _ => (0xF0FF, 0xE0A1)
  | .ldVxDt _ => (0xF0FF, 0xF007)
  | .ldVxK _ => (0xF0FF, 0xF00A)
  | .ldDtVx _ => (0xF0FF, 0xF015)
  | .ldStVx _ => (0xF0FF, 0xF018)
  | .addI _ => (0xF0FF, 0xF01E)
  | .ldF _ => (0xF0FF, 0xF029)
  | .ldB _ => (0xF0FF, 0xF033)
  | .ldMemVx _ => (0xF0FF, 0xF055)
  | .ldVxMem _ => (0xF0FF, 0xF065)

/-- The instruction's word has the fixed bits of its row of the opcode table. -/
def Statement (i : Instr) : Prop := encode i &&& (row i).1 = (row i).2

/-- Layout Gxnn under a mask of the group nibble. -/
theorem group_of_wordXNN (g x : Nibble) (nn : Byte) :
    wordXNN g x nn &&& 0xF000 = wordXNN g 0 0 := by
  apply BitVec.eq_of_getLsbD_eq
  intro k hk
  rw [BitVec.getLsbD_and, getLsbD_wordXNN, getLsbD_wordXNN]
  interval_cases k <;> simp

/-- Layout Gx?? under a mask of the group nibble and the low byte. -/
theorem ends_of_wordXNN (g x : Nibble) (nn : Byte) :
    wordXNN g x nn &&& 0xF0FF = wordXNN g 0 nn := by
  apply BitVec.eq_of_getLsbD_eq
  intro k hk
  rw [BitVec.getLsbD_and, getLsbD_wordXNN, getLsbD_wordXNN]
  interval_cases k <;> simp

/-- Layout Gxyn under a mask of the group nibble. -/
theorem group_of_wordXYN (g x y n : Nibble) :
    wordXYN g x y n &&& 0xF000 = wordXNN g 0 0 := by
  rw [wordXYN_eq, group_of_wordXNN]

/-- Layout Gxy? under a mask of the group nibble and the low nibble. -/
theorem ends_of_wordXYN (g x y n : Nibble) :
    wordXYN g x y n &&& 0xF00F = wordXYN g 0 0 n := by
  apply BitVec.eq_of_getLsbD_eq
  intro k hk
  rw [wordXYN_eq, wordXYN_eq, BitVec.getLsbD_and, getLsbD_wordXNN, getLsbD_wordXNN,
    BitVec.getLsbD_append, BitVec.getLsbD_append]
  interval_cases k <;> simp

/-- Layout Gnnn under a mask of the group nibble. -/
theorem group_of_wordNNN (g : Nibble) (nnn : Addr12) :
    wordNNN g nnn &&& 0xF000 = wordXNN g 0 0 := by
  rw [wordNNN_eq, group_of_wordXNN]

theorem cls (x : Nibble) : Statement (.cls x) := ends_of_wordXNN _ x _

theorem ret (x : Nibble) : Statement (.ret x) := ends_of_wordXNN _ x _

theorem sys (nnn : Addr12) : Statement (.sys nnn) := group_of_wordNNN _ nnn

theorem jp (nnn : Addr12) : Statement (.jp nnn) := group_of_wordNNN _ nnn

theorem call (nnn : Addr12) : Statement (.call nnn) := group_of_wordNNN _ nnn

theorem seImm (x : Nibble) (nn : Byte) : Statement (.seImm x nn) := group_of_wordXNN _ x nn

theorem sneImm (x : Nibble) (nn : Byte) : Statement (.sneImm x nn) := group_of_wordXNN _ x nn

theorem seReg (x y : Nibble) : Statement (.seReg x y) := ends_of_wordXYN _ x y _

theorem ldImm (x : Nibble) (nn : Byte) : Statement (.ldImm x nn) := group_of_wordXNN _ x nn

theorem addImm (x : Nibble) (nn : Byte) : Statement (.addImm x nn) := group_of_wordXNN _ x nn

theorem ldReg (x y : Nibble) : Statement (.ldReg x y) := ends_of_wordXYN _ x y _

theorem orReg (x y : Nibble) : Statement (.orReg x y) := ends_of_wordXYN _ x y _

theorem andReg (x y : Nibble) : Statement (.andReg x y) := ends_of_wordXYN _ x y _

theorem xorReg (x y : Nibble) : Statement (.xorReg x y) := ends_of_wordXYN _ x y _

theorem addReg (x y : Nibble) : Statement (.addReg x y) := ends_of_wordXYN _ x y _

theorem sub (x y : Nibble) : Statement (.sub x y) := ends_of_wordXYN _ x y _

theorem shr (x y : Nibble) : Statement (.shr x y) := ends_of_wordXYN _ x y _

theorem subn (x y : Nibble) : Statement (.subn x y) := ends_of_wordXYN _ x y _

theorem shl (x y : Nibble) : Statement (.shl x y) := ends_of_wordXYN _ x y _

theorem sneReg (x y : Nibble) : Statement (.sneReg x y) := ends_of_wordXYN _ x y _

theorem ldI (nnn : Addr12) : Statement (.ldI nnn) := group_of_wordNNN _ nnn

theorem jpV0 (nnn : Addr12) : Statement (.jpV0 nnn) := group_of_wordNNN _ nnn

theorem rnd (x : Nibble) (nn : Byte) : Statement (.rnd x nn) := group_of_wordXNN _ x nn

theorem drw (x y n : Nibble) : Statement (.drw x y n) := group_of_wordXYN _ x y n

theorem skp (x : Nibble) : Statement (.skp x) := ends_of_wordXNN _ x _

theorem sknp (x : Nibble) : Statement (.sknp x) := ends_of_wordXNN _ x _

theorem ldVxDt (x : Nibble) : Statement (.ldVxDt x) := ends_of_wordXNN _ x _

theorem ldVxK (x : Nibble) : Statement (.ldVxK x) := ends_of_wordXNN _ x _

theorem ldDtVx (x : Nibble) : Statement (.ldDtVx x) := ends_of_wordXNN _ x _

theorem ldStVx (x : Nibble) : Statement (.ldStVx x) := ends_of_wordXNN _ x _

theorem addI (x : Nibble) : Statement (.addI x) := ends_of_wordXNN _ x _

theorem ldF (x : Nibble) : Statement (.ldF x) := ends_of_wordXNN _ x _

theorem ldB (x : Nibble) : Statement (.ldB x) := ends_of_wordXNN _ x _

theorem ldMemVx (x : Nibble) : Statement (.ldMemVx x) := ends_of_wordXNN _ x _

theorem ldVxMem (x : Nibble) : Statement (.ldVxMem x) := ends_of_wordXNN _ x _

end Sys2Proof.Laws.TableRow
end

