-- ==== Sys2Proof/Laws/Step.lean ====
section
/-! SUPPORT. What the parts of a step can do, said once. -/

namespace Sys2Proof.Machine

/-- The meanings answer a next state when they raise a fault. -/
@[simp] theorem raise_eq (code : FaultCode) (w : Word) (s : State) :
    raise code w s = .next (s.raiseFault code w) := rfl

/-! ### Inputs -/

theorem State.nextInput_cons {s : State} {inp : Input} {rest : List Input}
    (h : s.inputs = inp :: rest) : s.nextInput = inp := by simp [State.nextInput, h]

/-- Events touch the latch, the engine state and the halt cause, and, when they complete a wait, one
V register and PC. Nothing else. -/
theorem State.applyEvents_frame (s : State) (evs : List Event) :
    s.applyEvents evs =
      { s with
        v := (s.applyEvents evs).v
        pc := (s.applyEvents evs).pc
        keys := (s.applyEvents evs).keys
        es := (s.applyEvents evs).es
        haltCause := (s.applyEvents evs).haltCause } := by
  induction evs generalizing s with
  | nil => rfl
  | cons ev rest ih =>
    cases ev with
    | keyDown k =>
      unfold State.applyEvents
      rw [ih (s.keyDown k)]
      unfold State.keyDown
      split <;> rfl
    | keyUp k =>
      unfold State.applyEvents
      rw [ih (s.keyUp k)]
      rfl
    | quit => rfl

/-- In RUN, events touch the latch, and a quit among them halts; nothing else changes. -/
theorem State.applyEvents_run (s : State) (evs : List Event) (h : s.es = .run) :
    s.applyEvents evs =
      { s with
        keys := (s.applyEvents evs).keys
        es := if .quit ∈ evs then .halted else .run
        haltCause := if .quit ∈ evs then .quit else s.haltCause } := by
  induction evs generalizing s with
  | nil => simp [State.applyEvents, ← h]
  | cons ev rest ih =>
    cases ev with
    | keyDown k =>
      have hk : s.keyDown k = s.setKey k true := by simp [State.keyDown, h]
      unfold State.applyEvents
      rw [hk, ih (s.setKey k true) h]
      simp [State.setKey]
    | keyUp k =>
      unfold State.applyEvents
      rw [ih (s.keyUp k) h]
      simp [State.keyUp, State.setKey]
    | quit => simp [State.applyEvents, State.quit]

/-- The tick touches the two timers alone. -/
theorem State.applyTick_eq (s : State) (b : Bool) :
    s.applyTick b =
      { s with
        dt := if b then countDown s.dt else s.dt
        st := if b then countDown s.st else s.st } := by
  cases b <;> rfl

theorem countDown_toNat (a : Byte) : (countDown a).toNat = a.toNat - 1 := by
  unfold countDown
  split
  · next h => simp [h]
  · next h =>
    have : a.toNat ≠ 0 := fun e => h (BitVec.eq_of_toNat_eq (by simpa using e))
    have := a.isLt
    rw [BitVec.toNat_sub]
    simp
    omega

/-- The inputs of an iteration or poll touch V, PC, the latch, the engine state with its halt cause,
the timers and the model's own input fields. Nothing else. -/
theorem State.applyInputs_frame (s : State) :
    s.applyInputs =
      { s with
        v := s.applyInputs.v
        pc := s.applyInputs.pc
        keys := s.applyInputs.keys
        es := s.applyInputs.es
        haltCause := s.applyInputs.haltCause
        dt := s.applyInputs.dt
        st := s.applyInputs.st
        inputs := s.inputs.tail
        drawn := s.drawn + 1
        rand := s.nextInput.rand } := by
  unfold State.applyInputs
  have h := State.applyEvents_frame s.sample s.nextInput.events
  generalize s.sample.applyEvents s.nextInput.events = a at *
  simp only
  split
  · rw [h]; rfl
  · rw [State.applyTick_eq, h]; rfl

/-- In RUN, the inputs leave V and PC alone, and the engine goes on in RUN unless a quit halts it. -/
theorem State.applyInputs_run (s : State) (h : s.es = .run) :
    s.applyInputs.v = s.v ∧ s.applyInputs.pc = s.pc ∧
      s.applyInputs.es = if .quit ∈ s.nextInput.events then .halted else .run := by
  have e := State.applyEvents_run s.sample s.nextInput.events h
  unfold State.applyInputs
  simp only
  split
  · rw [e]; exact ⟨rfl, rfl, rfl⟩
  · rw [State.applyTick_eq, e]; exact ⟨rfl, rfl, rfl⟩

/-! ### One iteration -/

/-- A step in HALTED (spec/60_exceptions.md R273). -/
theorem step_of_halted {s : State} (h : s.es = .halted) : step s = .next s := by
  simp [step, iteration, h]

/-- A step in WAIT_KEY is a poll (R272). -/
theorem step_of_waitKey {s : State} (h : s.es = .waitKey) : step s = .next s.applyInputs := by
  simp [step, iteration, h]

/-- A step in RUN executes one instruction after its inputs, unless they halt it (R270). -/
theorem step_of_run {s : State} (h : s.es = .run) :
    step s = if s.applyInputs.es = .halted then .next s.applyInputs else executeOne s.applyInputs := by
  simp [step, iteration, h]

/-- execute_one ends in a fetch fault, a decode fault, or the instruction's own meaning (R121). -/
theorem executeOne_cases (s : State) :
    (s.fetch = none ∧ executeOne s = .next (s.raiseFault .fetchOutOfRange 0)) ∨
    (∃ w, s.fetch = some w ∧
      ((∃ e, decode s.cfg.strictGroup0 w = .error e ∧
          executeOne s = .next (s.raiseFault .unsupported w)) ∨
        ∃ i, decode s.cfg.strictGroup0 w = .ok i ∧ executeOne s = exec i s)) := by
  unfold executeOne
  cases hf : s.fetch with
  | none => exact .inl ⟨rfl, rfl⟩
  | some w =>
    refine .inr ⟨w, rfl, ?_⟩
    dsimp only
    cases hd : decode s.cfg.strictGroup0 w with
    | error e => exact .inl ⟨e, rfl, rfl⟩
    | ok i => exact .inr ⟨i, rfl, rfl⟩

/-- What the inputs, fault entry and every instruction preserve, every step preserves. -/
theorem step_preserves {P : State → Prop} (hin : ∀ s, P s → P s.applyInputs)
    (hfault : ∀ s code w, P s → P (s.raiseFault code w))
    (hexec : ∀ i s t, P s → exec i s = .next t → P t) {s t : State} (hs : P s)
    (h : step s = .next t) : P t := by
  cases hes : s.es with
  | halted => rw [step_of_halted hes] at h; cases h; exact hs
  | waitKey => rw [step_of_waitKey hes] at h; cases h; exact hin _ hs
  | run =>
    rw [step_of_run hes] at h
    split at h
    · cases h; exact hin _ hs
    · rcases executeOne_cases s.applyInputs with ⟨_, e⟩ | ⟨w, _, ⟨_, _, e⟩ | ⟨i, _, e⟩⟩
      · rw [e] at h; cases h; exact hfault _ _ _ (hin _ hs)
      · rw [e] at h; cases h; exact hfault _ _ _ (hin _ hs)
      · rw [e] at h; exact hexec _ _ _ (hin _ hs) h

/-! ### Runs -/

/-- A run of the host's interface, one step at a time. -/
theorem core_run_succ (M : Host.Core) (n : Nat) (s : M.State) :
    M.run (n + 1) s =
      match M.step s with
      | .next t => M.run n t
      | .fault r => .fault r
      | .refused r => .refused r := rfl

/-- A run whose first step answers a next state goes on from there. -/
theorem run_of_step_next {n : Nat} {s t : State} (h : step s = .next t) :
    Host.Core.run Sys2Proof.core (n + 1) s = Host.Core.run Sys2Proof.core n t := by
  have h' : Sys2Proof.core.step s = .next t := h
  refine (core_run_succ Sys2Proof.core n s).trans ?_
  rw [h']

end Sys2Proof.Machine
end

