-- ==== Sys2Proof/Tests/Slice0.lean ====
section
/-! SUPPORT. Tests: well-formedness, the words of spec/30_encoding.md R123 and
spec/95_test_vectors.md section 2, one-step vectors of spec/95_test_vectors.md sections 1 and 3 to 9
(named in each comment), and a witness for every obligation that has hypotheses. -/

namespace Sys2Proof.Tests

open Sys2Proof Sys2Proof.Machine

/-! ### Helpers -/

/-- The state an outcome holds, or `s` where there is none. -/
def stateOr (s : State) : Result → State
  | .next t => t
  | .fault _ => s
  | .refused _ => s

/-- One step of `s` on the word `w`, with no event and no tick. -/
def after (s : State) (w : Nat) : State := stateOr s (step (s.withFetchWord 16 w))

/-- One step of `s` on the word `w` with the inputs `inp`. -/
def afterWith (s : State) (inp : Input) (w : Nat) : State :=
  stateOr s (step { s.withFetchWord 16 w with inputs := [inp] })

/-- One poll of `s` with these events. -/
def poll (s : State) (evs : List Event) : State :=
  stateOr s (step { s with inputs := [{ events := evs, tick := false, rand := 0 }] })

/-- The reset state with I set. -/
def atI (a : Word) : State := State.reset.setI a

/-- The reset state with a byte stored. -/
def withByte (a : Nat) (b : Byte) : State :=
  { State.reset with mem := Memory.write Config.glyphRom [] a b }

/-- The reset state waiting for a key for Vx. -/
def waiting (x : Nibble) : State := State.reset.enterWait x

/-- A state with the inputs of its next iteration. -/
def withEvents (s : State) (evs : List Event) : State :=
  { s with inputs := [{ events := evs, tick := true, rand := 0 }] }

/-- Whether a state is halted by a fault with this code, at this address, on this word. -/
def faulted (s : State) (code : Nat) (pc op : Word) : Bool :=
  s.es == .halted && s.haltCause == .fault && s.faultCode.code.toNat == code &&
    s.faultPc == pc && s.faultOp == op && s.pc == pc

/-! ### Well-formedness: one ill-formed term for each check (R114) -/

theorem test_wf_cls_middle_nibble :
    (Instr.cls 1).wf true = false ∧ (Instr.cls 1).wf false = true ∧ (Instr.cls 0).wf true = true := by
  decide

theorem test_wf_ret_middle_nibble :
    (Instr.ret 0xF).wf true = false ∧ (Instr.ret 0xF).wf false = true ∧
      (Instr.ret 0).wf true = true := by
  decide

theorem test_wf_sys_is_not_cls_or_ret :
    (Instr.sys 0x0E0).wf true = false ∧ (Instr.sys 0x0EE).wf true = false ∧
      (Instr.sys 0x1E0).wf false = false ∧ (Instr.sys 0x1E0).wf true = true ∧
      (Instr.sys 0x0E1).wf false = true := by
  decide

/-! ### Decoding and encoding: the patterns of R123, words written out from them -/

/-- Group 0, and the vectors E1 to E6. -/
theorem test_decode_group0 :
    decode false 0x0000 = .ok (.sys 0x000) ∧
    decode false 0x00E0 = .ok (.cls 0x0) ∧ decode false 0x00EE = .ok (.ret 0x0) ∧
    decode false 0x01E0 = .ok (.cls 0x1) ∧ decode true 0x01E0 = .ok (.sys 0x1E0) ∧
    decode false 0x0FEE = .ok (.ret 0xF) ∧ decode true 0x0FEE = .ok (.sys 0xFEE) ∧
    decode false 0x0123 = .ok (.sys 0x123) := by
  decide

/-- Jumps, calls and skips, and the vectors E7 and E20. -/
theorem test_decode_flow :
    decode false 0x1234 = .ok (.jp 0x234) ∧ decode false 0x2ABC = .ok (.call 0xABC) ∧
    decode false 0x3C5A = .ok (.seImm 0xC 0x5A) ∧ decode false 0x4C5A = .ok (.sneImm 0xC 0x5A) ∧
    decode false 0x5AB0 = .ok (.seReg 0xA 0xB) ∧ decode false 0x9AB0 = .ok (.sneReg 0xA 0xB) ∧
    decode false 0xB123 = .ok (.jpV0 0x123) := by
  decide

/-- Groups 6, 7, 8 and C, and the vectors E10 and E13. -/
theorem test_decode_alu :
    decode false 0x6A5C = .ok (.ldImm 0xA 0x5C) ∧ decode false 0x7A5C = .ok (.addImm 0xA 0x5C) ∧
    decode false 0x8AB0 = .ok (.ldReg 0xA 0xB) ∧ decode false 0x8AB1 = .ok (.orReg 0xA 0xB) ∧
    decode false 0x8AB2 = .ok (.andReg 0xA 0xB) ∧ decode false 0x8AB3 = .ok (.xorReg 0xA 0xB) ∧
    decode false 0x8AB4 = .ok (.addReg 0xA 0xB) ∧ decode false 0x8AB5 = .ok (.sub 0xA 0xB) ∧
    decode false 0x8AB6 = .ok (.shr 0xA 0xB) ∧ decode false 0x8AB7 = .ok (.subn 0xA 0xB) ∧
    decode false 0x8ABE = .ok (.shl 0xA 0xB) ∧ decode false 0xC30F = .ok (.rnd 0x3 0x0F) := by
  decide

/-- Groups A, D and the index rows of F, and the vector E18. -/
theorem test_decode_memory_and_display :
    decode false 0xA2F0 = .ok (.ldI 0x2F0) ∧ decode false 0xD125 = .ok (.drw 0x1 0x2 0x5) ∧
    decode false 0xF31E = .ok (.addI 0x3) ∧ decode false 0xF229 = .ok (.ldF 0x2) ∧
    decode false 0xF933 = .ok (.ldB 0x9) ∧ decode false 0xFF55 = .ok (.ldMemVx 0xF) ∧
    decode false 0xF165 = .ok (.ldVxMem 0x1) := by
  decide

/-- Group E and the key and timer rows of F, and the vector E15. -/
theorem test_decode_keys_and_timers :
    decode false 0xE19E = .ok (.skp 0x1) ∧ decode false 0xE5A1 = .ok (.sknp 0x5) ∧
    decode false 0xF307 = .ok (.ldVxDt 0x3) ∧ decode false 0xF30A = .ok (.ldVxK 0x3) ∧
    decode false 0xF115 = .ok (.ldDtVx 0x1) ∧ decode false 0xF118 = .ok (.ldStVx 0x1) := by
  decide

/-- The vectors E8, E9, E11, E12, E14, E16, E17 and E19. -/
theorem test_decode_unsupported :
    decode false 0x5AB1 = .error .unsupported ∧ decode false 0x9ABF = .error .unsupported ∧
    decode false 0x8AB8 = .error .unsupported ∧ decode false 0x8ABD = .error .unsupported ∧
    decode false 0x8ABF = .error .unsupported ∧ decode false 0xE19F = .error .unsupported ∧
    decode false 0xF100 = .error .unsupported ∧ decode false 0xFFFF = .error .unsupported := by
  decide

/-- The encoder writes the same words. -/
theorem test_encode_rows :
    encode (.cls 0) = 0x00E0 ∧ encode (.ret 0xF) = 0x0FEE ∧ encode (.sys 0x123) = 0x0123 ∧
    encode (.call 0xABC) = 0x2ABC ∧ encode (.sneImm 0xC 0x5A) = 0x4C5A ∧
    encode (.sneReg 0xA 0xB) = 0x9AB0 ∧ encode (.subn 0xA 0xB) = 0x8AB7 ∧
    encode (.rnd 0x3 0x0F) = 0xC30F ∧ encode (.drw 0x1 0x2 0x5) = 0xD125 ∧
    encode (.sknp 0x5) = 0xE5A1 ∧ encode (.ldVxK 0x3) = 0xF30A ∧ encode (.ldVxMem 0x1) = 0xF165 := by
  decide

/-- Bytes, high first, with those left over (R86, R110); one byte is no instruction. -/
theorem test_decode_bytes :
    decodeBytes false [0x12, 0x34, 0x56] = .ok (.jp 0x234, [0x56]) ∧
      decodeBytes false [0x12] = .error .truncated := by
  decide

/-- The table's words (masks and matches of R123) reach their rows. -/
theorem test_decode_table_words :
    decodeTableWord 16 0x00E0 = some (.cls 0) ∧ decodeTableWord 16 0x8006 = some (.shr 0 0) ∧
      decodeTableWord 16 0xF055 = some (.ldMemVx 0) ∧ decodeTableWord 16 0xF0FF = none := by
  decide

/-! ### Display (vectors D1 to D14) -/

/-- D1. -/
theorem test_cls :
    let s : State := State.reset.setFb (Framebuffer.clear.setPixel 4 3 true)
    s.pixel 4 3 = true ∧ (after s 0x00E0).pixel 4 3 = false ∧ (after s 0x00E0).pc = 0x202 := by
  decide

/-- D5: overlap without erasure is no collision; D4: erasure is. -/
theorem test_drw_collision :
    let lit : State := { withByte 0x300 0x40 with fb := Framebuffer.clear.setPixel 0 0 true, i := 0x300 }
    let hit : State := { withByte 0x300 0x80 with fb := Framebuffer.clear.setPixel 0 0 true, i := 0x300 }
    (after lit 0xD011).pixel 0 0 = true ∧ (after lit 0xD011).pixel 0 1 = true ∧
      (after lit 0xD011).reg 0xF = 0 ∧
      (after hit 0xD011).pixel 0 0 = false ∧ (after hit 0xD011).reg 0xF = 1 := by
  decide

/-- D7: the wrap at the right edge; D9: the range check. -/
theorem test_drw_wrap_and_range :
    let s : State := ({ withByte 0x300 0xC3 with i := 0x300 }.setReg 1 62).setReg 2 31
    let t := after s 0xD121
    t.pixel 31 62 = true ∧ t.pixel 31 63 = true ∧ t.pixel 31 4 = true ∧ t.pixel 31 5 = true ∧
      t.pixel 31 0 = false ∧ faulted (after (atI 0xFFF) 0xD122) 6 0x200 0xD122 = true := by
  decide

/-! ### Control transfer (vectors F1 to F23) -/

/-- F13 and F14. -/
theorem test_ret :
    let s : State := { State.reset with pc := 0x212, stack := [0x206] }
    (after s 0x00EE).pc = 0x206 ∧ (after s 0x00EE).stack = [] ∧
      faulted (after State.reset 0x00EE) 3 0x200 0x00EE = true := by
  decide

/-- E1. -/
theorem test_sys : faulted (after State.reset 0x0000) 2 0x200 0x0000 = true := by decide

/-- F2: an odd target is taken. -/
theorem test_jp : (after State.reset 0x1201).pc = 0x201 := by decide

/-- F12 and F16. -/
theorem test_call :
    (after { State.reset with pc := 0x204 } 0x2210).stack = [0x206] ∧
      (after { State.reset with pc := 0x204 } 0x2210).pc = 0x210 ∧
      (after { State.reset with pc := 0xFFE } 0x2200).stack = [0x1000] := by
  decide

/-- F15. -/
theorem test_call_overflow :
    let s : State := { State.reset with pc := 0x2A0, stack := List.replicate 16 0x206 }
    faulted (after s 0x2300) 4 0x2A0 0x2300 = true ∧ (after s 0x2300).stack.length = 16 := by
  decide

/-- F3 and F4. -/
theorem test_seImm :
    (after (State.reset.setReg 3 0x42) 0x3342).pc = 0x204 ∧
      (after (State.reset.setReg 3 0x41) 0x3342).pc = 0x202 := by
  decide

/-- F5 and F6. -/
theorem test_sneImm :
    (after (State.reset.setReg 3 0x42) 0x4342).pc = 0x202 ∧ (after State.reset 0x4342).pc = 0x204 := by
  decide

/-- F7 and F8. -/
theorem test_seReg :
    (after ((State.reset.setReg 1 7).setReg 2 7) 0x5120).pc = 0x204 ∧
      (after ((State.reset.setReg 1 7).setReg 2 8) 0x5120).pc = 0x202 := by
  decide

/-- F9 and F10. -/
theorem test_sneReg :
    (after ((State.reset.setReg 1 7).setReg 2 8) 0x9120).pc = 0x204 ∧
      (after ((State.reset.setReg 1 7).setReg 2 7) 0x9120).pc = 0x202 := by
  decide

/-- F18 and F20. -/
theorem test_jpV0 :
    (after (State.reset.setReg 0 0x10) 0xB300).pc = 0x310 ∧
      (after (State.reset.setReg 0 0xFF) 0xBFFF).pc = 0x10FE := by
  decide

/-! ### Registers and ALU (vectors S2 to S5 and A1 to A30) -/

/-- A1. -/
theorem test_ldImm : (after State.reset 0x65AB).reg 5 = 0xAB := by decide

/-- S2 and A2. -/
theorem test_addImm :
    let s := (State.reset.setReg 1 0xFF).setReg 0xF 0x07
    (after s 0x7101).reg 1 = 0 ∧ (after s 0x7101).reg 0xF = 0x07 ∧
      (after (State.reset.setReg 0xF 0x10) 0x7F01).reg 0xF = 0x11 := by
  decide

/-- A4. -/
theorem test_ldReg : (after (State.reset.setReg 2 0x7F) 0x8120).reg 1 = 0x7F := by decide

/-- A5. -/
theorem test_orReg :
    let t := after (((State.reset.setReg 1 0x0F).setReg 2 0xF0).setReg 0xF 1) 0x8121
    t.reg 1 = 0xFF ∧ t.reg 0xF = 1 := by
  decide

/-- A6. -/
theorem test_andReg :
    let t := after (((State.reset.setReg 1 0x3C).setReg 2 0x0F).setReg 0xF 5) 0x8122
    t.reg 1 = 0x0C ∧ t.reg 0xF = 5 := by
  decide

/-- A7. -/
theorem test_xorReg : (after (State.reset.setReg 1 0xAA) 0x8113).reg 1 = 0 := by decide

/-- A8 and A9. -/
theorem test_addReg :
    let t := after ((State.reset.setReg 1 0x80).setReg 2 0x80) 0x8124
    let u := after ((State.reset.setReg 1 0x80).setReg 2 0x7F) 0x8124
    t.reg 1 = 0 ∧ t.reg 0xF = 1 ∧ u.reg 1 = 0xFF ∧ u.reg 0xF = 0 := by
  decide

/-- A11: the flag is written last; A12: VF is read first. -/
theorem test_addReg_flag_register :
    let t := after ((State.reset.setReg 0xF 0xFF).setReg 1 1) 0x8F14
    let u := after ((State.reset.setReg 0xF 0xFF).setReg 1 1) 0x81F4
    t.reg 0xF = 1 ∧ u.reg 1 = 0 ∧ u.reg 0xF = 1 := by
  decide

/-- S4 and A14. -/
theorem test_sub :
    let t := after ((State.reset.setReg 1 5).setReg 2 7) 0x8125
    let u := after (State.reset.setReg 1 0x33) 0x8115
    t.reg 1 = 0xFE ∧ t.reg 0xF = 0 ∧ u.reg 1 = 0 ∧ u.reg 0xF = 1 := by
  decide

/-- S5 and A18. -/
theorem test_shr :
    let t := after ((State.reset.setReg 1 5).setReg 2 0xFF) 0x8126
    t.reg 1 = 2 ∧ t.reg 0xF = 1 ∧ (after (State.reset.setReg 0xF 3) 0x8F06).reg 0xF = 1 := by
  decide

/-- A20 and A21. -/
theorem test_subn :
    let t := after ((State.reset.setReg 1 7).setReg 2 5) 0x8127
    let u := after ((State.reset.setReg 1 5).setReg 2 7) 0x8127
    t.reg 1 = 0xFE ∧ t.reg 0xF = 0 ∧ u.reg 1 = 2 ∧ u.reg 0xF = 1 := by
  decide

/-- A23 and A24. -/
theorem test_shl :
    let t := after (State.reset.setReg 1 0x81) 0x811E
    let u := after (State.reset.setReg 1 0x40) 0x812E
    t.reg 1 = 2 ∧ t.reg 0xF = 1 ∧ u.reg 1 = 0x80 ∧ u.reg 0xF = 0 := by
  decide

/-- A27 and A29, with the random byte in the iteration's inputs. -/
theorem test_rnd :
    (afterWith State.reset { events := [], tick := false, rand := 0xA7 } 0xC30F).reg 3 = 0x07 ∧
      (afterWith State.reset { events := [], tick := false, rand := 0xA7 } 0xC3FF).reg 3 = 0xA7 := by
  decide

/-! ### Index and memory (vectors S10 and M1 to M24) -/

/-- M1. -/
theorem test_ldI : (after State.reset 0xA2F0).i = 0x2F0 := by decide

/-- M2 and M3. -/
theorem test_addI :
    let t := after ((atI 0xFFE).setReg 3 2) 0xF31E
    let u := after ((atI 0xFFD).setReg 3 2) 0xF31E
    t.i = 0x1000 ∧ t.reg 0xF = 1 ∧ u.i = 0xFFF ∧ u.reg 0xF = 0 := by
  decide

/-- M5: VF is read before it is written; M6: the wrap. -/
theorem test_addI_corners :
    let t := after ((atI 0x100).setReg 0xF 5) 0xFF1E
    let u := after ((atI 0xFFFF).setReg 1 1) 0xF11E
    t.i = 0x105 ∧ t.reg 0xF = 0 ∧ u.i = 0 ∧ u.reg 0xF = 1 := by
  decide

/-- M8 and M10. -/
theorem test_ldF :
    (after (State.reset.setReg 2 0x0F) 0xF229).i = 0x04B ∧
      (after (State.reset.setReg 2 0xFF) 0xF229).i = 0x4FB := by
  decide

/-- S10 and M15. -/
theorem test_ldB :
    let t := after ((atI 0x300).setReg 0 157) 0xF033
    t.readByte 0x300 = some 1 ∧ t.readByte 0x301 = some 5 ∧ t.readByte 0x302 = some 7 ∧
      t.i = 0x300 ∧ faulted (after (atI 0xFFE) 0xF033) 6 0x200 0xF033 = true := by
  decide

/-- M19 and M18. -/
theorem test_ldMemVx :
    let s := (((atI 0xFFD).setReg 0 0x11).setReg 1 0x22).setReg 2 0x33
    let t := after s 0xF255
    t.readByte 0xFFD = some 0x11 ∧ t.readByte 0xFFE = some 0x22 ∧ t.readByte 0xFFF = some 0x33 ∧
      t.i = 0xFFD ∧ faulted (after (atI 0xFF1) 0xFF55) 6 0x200 0xFF55 = true := by
  decide

/-- M24: the glyphs are writable. -/
theorem test_ldMemVx_glyphs :
    (after (State.reset.setReg 0 0xAA) 0xF055).readByte 0 = some 0xAA ∧
      (after (State.reset.setReg 0 0xAA) 0xF055).readByte 1 = some 0x90 := by
  decide

/-- M23, and the registers past Vx. -/
theorem test_ldVxMem :
    let t := after (State.reset.setReg 5 0x99) 0xF465
    t.reg 0 = 0xF0 ∧ t.reg 1 = 0x90 ∧ t.reg 4 = 0xF0 ∧ t.reg 5 = 0x99 ∧ t.i = 0 := by
  decide

/-! ### Keys and timers (vectors K1 to K18 and T1 to T4) -/

/-- K1, K2 and K5. -/
theorem test_skp :
    let s := State.reset.setReg 5 7
    (after (s.setKey 7 true) 0xE59E).pc = 0x204 ∧ (after s 0xE59E).pc = 0x202 ∧
      faulted (after (State.reset.setReg 5 0x10) 0xE59E) 7 0x200 0xE59E = true := by
  decide

/-- K3 and K4. -/
theorem test_sknp :
    let s := State.reset.setReg 5 7
    (after s 0xE5A1).pc = 0x204 ∧ (after (s.setKey 7 true) 0xE5A1).pc = 0x202 := by
  decide

/-- K7, and variant b of program P5: the tick precedes the read. -/
theorem test_ldVxDt :
    (after (State.reset.setDt 0x3C) 0xF307).reg 3 = 0x3C ∧
      (afterWith (State.reset.setDt 7) { events := [], tick := true, rand := 0 } 0xF207).reg 2 = 6 := by
  decide

/-- K8. -/
theorem test_ldDtVx : (after (State.reset.setReg 1 0x3C) 0xF115).dt = 0x3C := by decide

/-- K9 and K10. -/
theorem test_ldStVx :
    (after (State.reset.setReg 1 5) 0xF118).st = 5 ∧
      (after (State.reset.setReg 1 5) 0xF118).soundOn = true ∧
      (after (State.reset.setSt 5) 0xF118).soundOn = false := by
  decide

/-- K11. -/
theorem test_ldVxK :
    let t := after State.reset 0xF30A
    t.es = .waitKey ∧ t.waitX = 3 ∧ t.pc = 0x200 := by
  decide

/-- K12: the first key-down completes the wait, the later one only moves the latch. -/
theorem test_poll_completes :
    let t := poll ((waiting 3).setKey 2 true) [.keyUp 2, .keyDown 0xB, .keyDown 4]
    t.key 2 = false ∧ t.reg 3 = 0x0B ∧ t.pc = 0x202 ∧ t.es = .run ∧ t.key 0xB = true ∧
      t.key 4 = true := by
  decide

/-- K13: a held key does not complete the wait; K16: a quit halts without a write. -/
theorem test_poll_waits_or_quits :
    (poll ((waiting 0).setKey 3 true) []).es = .waitKey ∧
      (poll ((waiting 2).setReg 2 0x44) [.quit]).es = .halted ∧
      (poll ((waiting 2).setReg 2 0x44) [.quit]).haltCause = .quit ∧
      (poll ((waiting 2).setReg 2 0x44) [.quit]).reg 2 = 0x44 := by
  decide

/-! ### Faults and scheduling (vectors X2 to X7) and the load port (L1, L2) -/

/-- X2: the tick precedes the instruction and is not undone. -/
theorem test_tick_before_fault :
    let t := afterWith (State.reset.setDt 5) { events := [], tick := true, rand := 0 } 0x00EE
    t.dt = 4 ∧ faulted t 3 0x200 0x00EE = true := by
  decide

/-- X3: a quit discards the later events, the tick and the instruction. -/
theorem test_quit :
    let t := afterWith (State.reset.setDt 5)
      { events := [.keyDown 1, .quit, .keyDown 2], tick := true, rand := 0 } 0x6005
    t.key 1 = true ∧ t.key 2 = false ∧ t.dt = 5 ∧ t.reg 0 = 0 ∧ t.es = .halted ∧
      t.haltCause = .quit ∧ t.faultCode = .none := by
  decide

/-- X5 and X6. -/
theorem test_fetch_and_decode_faults :
    faulted (after State.reset 0x5AB1) 1 0x200 0x5AB1 = true ∧
      faulted (poll { State.reset with pc := 0xFFF } []) 5 0xFFF 0x0000 = true := by
  decide

/-- The machine from reset with no program: the empty image's word is a legacy call (R49, R151). -/
theorem test_step_from_reset : faulted (poll State.reset []) 2 0x200 0x0000 = true := by decide

/-- The image's first and second byte, and a byte past it (R49). -/
theorem test_load :
    let s := State.load Config.defaults [0xF1, 0x0A]
    s.readByte 0x200 = some 0xF1 ∧ s.readByte 0x201 = some 0x0A ∧ s.readByte 0x202 = some 0 ∧
      s.pc = 0x200 ∧ s.es = .run := by
  decide

/-- The longest image loads, one byte more does not (vectors L1 and L2). -/
theorem test_load_limit :
    (State.load Config.defaults (List.replicate 3584 0)).haltCause = .none ∧
      (State.load Config.defaults (List.replicate 3585 0)).haltCause = .loadError := by
  constructor
  · rw [State.load, if_neg (by rw [List.length_replicate]; decide)]; rfl
  · rw [State.load, if_pos (by rw [List.length_replicate]; decide)]

/-! ### Witnesses: for each obligation with hypotheses, operands and a state that meet them

A name after `witness_` is the obligation's. Where it has clauses, there is a conjunct for each, at a
boundary of its range. -/

/-- A state about to run the word `w`, with a key event and a tick among its inputs. -/
def running (s : State) (w : Nat) : State :=
  withEvents (s.withFetchWord 16 w) [.keyDown 3]

theorem witness_DecodeOfEncode :
    (Instr.cls 0xF).wf false = true ∧ (Instr.sys 0xFEE).wf true = true := by decide

theorem witness_EncodeOfDecode : decode true 0x0FEE = .ok (.sys 0xFEE) := by decide

theorem witness_GroupZeroWords :
    ((0xE0 : Byte) = 0xE0 ∧ (true = false ∨ (0 : Nibble) = 0)) ∧
      ((0xEE : Byte) = 0xEE ∧ (false = false ∨ (0xF : Nibble) = 0)) ∧
      ((0xE1 : Byte) ≠ 0xE0 ∧ (0xE1 : Byte) ≠ 0xEE ∨ false = true ∧ (0 : Nibble) ≠ 0) ∧
      ((0xE0 : Byte) ≠ 0xE0 ∧ (0xE0 : Byte) ≠ 0xEE ∨ true = true ∧ (1 : Nibble) ≠ 0) := by
  decide

theorem witness_BytesDecodeHighByteFirst :
    decode false (BitVec.ofNat 16 (256 * (0x12 : Byte).toNat + (0x34 : Byte).toNat)) =
      .ok (.jp 0x234) := by
  decide

theorem witness_StepRunsDecodedInstruction :
    let s := running { State.reset with pc := 0xFFE } 0x6005
    s.es = .run ∧ Event.quit ∉ s.nextInput.events ∧ s.readByte s.pc.toNat = some 0x60 ∧
      s.readByte (s.pc.toNat + 1) = some 0x05 ∧
      decodeBytes s.cfg.strictGroup0 [0x60, 0x05] = .ok (.ldImm 0 5, []) := by
  decide

theorem witness_RunInputsTouchLatchAndTimers :
    (running State.reset 0x6005).es = .run ∧
      Event.quit ∉ (running State.reset 0x6005).nextInput.events := by
  decide

theorem witness_TickCountsTimersDown :
    (State.reset.setDt 1).dt ≠ 0 ∧ (State.reset.setDt 1).st = 0 ∧ (State.reset.setSt 0xFF).st ≠ 0 ∧
      (State.reset.setSt 0xFF).dt = 0 := by
  decide

theorem witness_QuitHaltsAtOnce :
    let s := withEvents State.reset [.keyDown 1, .quit, .keyDown 2]
    s.es ≠ .halted ∧ s.nextInput.events = [.keyDown 1] ++ .quit :: [.keyDown 2] ∧
      Event.quit ∉ [Event.keyDown 1] ∧ (s.es = .waitKey → ∀ k, Event.keyDown k ∉ [Event.keyDown 1]) := by
  decide

theorem witness_QuitHaltsAtOnce_waiting :
    let s := withEvents (waiting 2) [.keyUp 1, .quit, .keyDown 2]
    s.es ≠ .halted ∧ s.nextInput.events = [.keyUp 1] ++ .quit :: [.keyDown 2] ∧
      Event.quit ∉ [Event.keyUp 1] ∧ (s.es = .waitKey → ∀ k, Event.keyDown k ∉ [Event.keyUp 1]) := by
  decide

theorem witness_PollWithoutKeyDownWaitsOn :
    let s := withEvents (waiting 2) [.keyUp 5]
    s.es = .waitKey ∧ Event.quit ∉ s.nextInput.events ∧
      ∀ k, Event.keyDown k ∉ s.nextInput.events := by
  decide

theorem witness_FirstKeyDownCompletesWait :
    let s := withEvents (waiting 0xF) [.keyUp 2, .keyDown 0xB, .keyDown 4, .quit]
    s.es = .waitKey ∧ s.nextInput.events = [.keyUp 2] ++ .keyDown 0xB :: [.keyDown 4, .quit] ∧
      Event.quit ∉ [Event.keyUp 2] ∧ (∀ j, Event.keyDown j ∉ [Event.keyUp 2]) ∧
      Event.quit ∈ [Event.keyDown 4, .quit] ∧ Event.quit ∉ [Event.keyDown 4] := by
  decide

theorem witness_HaltedStaysHalted : ((waiting 2).quit).es = .halted := by decide

theorem witness_FetchAboveRangeFaults :
    let s := withEvents { State.reset with pc := 0xFFF } []
    s.es = .run ∧ Event.quit ∉ s.nextInput.events ∧ 0xFFE < s.pc.toNat := by
  decide

theorem witness_UnsupportedWordFaults :
    let s := running State.reset 0x5AB1
    s.es = .run ∧ Event.quit ∉ s.nextInput.events ∧ s.readByte s.pc.toNat = some 0x5A ∧
      s.readByte (s.pc.toNat + 1) = some 0xB1 ∧
      decodeBytes s.cfg.strictGroup0 [0x5A, 0xB1] = .error .unsupported := by
  decide

/-- A state every invariant holds in: on the last fetchable address, with a full call stack of the
highest return addresses, about to store to the last byte of memory. -/
def edge : State :=
  { running { State.reset with pc := 0xFFE, stack := List.replicate 16 0x1000 } 0xF055 with i := 0xFFD }

/-- Its next state. -/
def edgeNext : State := stateOr edge (step edge)

theorem witness_StepKeepsMemoryCanonical : edge.memOk = true ∧ step edge = .next edgeNext :=
  ⟨by decide, rfl⟩

theorem witness_StepKeepsStackAndPcBounds :
    edge.stackOk = true ∧ edge.pcOk = true ∧ step edge = .next edgeNext :=
  ⟨by decide, by decide, rfl⟩

theorem witness_StepKeepsFaultRecord : edge.recordOk = true ∧ step edge = .next edgeNext :=
  ⟨by decide, rfl⟩

theorem witness_StepKeepsParameters : step edge = .next edgeNext := rfl

theorem witness_FaultsArePrecise :
    let t := State.reset.raiseFault .stackUnderflow 0x00EE
    State.reset.es ≠ .halted ∧ exec (.ret 0) State.reset = .next t ∧ t.es = .halted :=
  ⟨by decide, rfl, by decide⟩

theorem witness_OnlyStoresChangeMemory :
    exec (.ldB 0) (atI 0xFFD) = .next (stateOr (atI 0xFFD) (exec (.ldB 0) (atI 0xFFD))) ∧
      exec (.jp 0x234) State.reset = .next (State.reset.setPc 0x234) :=
  ⟨rfl, rfl⟩

theorem witness_OnlyDisplayInstructionsChangeFramebuffer :
    exec (.cls 0) State.reset = .next (State.reset.setFb Framebuffer.clear).advance ∧
      exec (.jp 0x234) State.reset = .next (State.reset.setPc 0x234) :=
  ⟨rfl, rfl⟩

theorem witness_OnlyListedRegistersChange :
    exec (.ldVxMem 0xE) State.reset =
        .next (stateOr State.reset (exec (.ldVxMem 0xE) State.reset)) ∧
      writesReg (.ldVxMem 0xE) 0xF = false :=
  ⟨rfl, by decide⟩

theorem witness_OnlyListedInstructionsChangeSpecialRegisters :
    exec (.ldI 0x2F0) State.reset = .next (State.reset.setI 0x2F0).advance :=
  rfl

/-- An instruction for each clause: the two that set a timer, the reader of DT, and a skip. -/
theorem witness_UnreadStateDoesNotMatter :
    exec (.ldStVx 0) State.reset = .next (State.reset.setSt 0).advance ∧
      exec (.ldDtVx 0) State.reset = .next (State.reset.setDt 0).advance ∧
      exec (.ldVxDt 0) (State.reset.setDt 1) = .next ((State.reset.setDt 1).setReg 0 1).advance ∧
      (∀ x, Instr.ldVxDt 0 ≠ .ldStVx x) ∧
      (∀ x, Instr.ldVxDt 0 ≠ .skp x ∧ Instr.ldVxDt 0 ≠ .sknp x) ∧
      (∀ x nn, Instr.ldVxDt 0 ≠ .rnd x nn) ∧
      exec (.skp 0) State.reset = .next (State.reset.skipIf false) ∧
      ∀ x, Instr.skp 0 ≠ .ldDtVx x ∧ Instr.skp 0 ≠ .ldVxDt x :=
  ⟨rfl, rfl, rfl, by simp, by simp, by simp, rfl, by simp⟩

theorem witness_ClsClearsFramebuffer : (1 : Nibble) ≠ 0 := by decide

theorem witness_DrwXorsSprite :
    ((1 : Nibble).toNat = 0 ∨ (atI 0xFFF).i.toNat + (1 : Nibble).toNat - 1 ≤ 0xFFF) ∧
      ((0 : Nibble).toNat = 0 ∨ (atI 0x1000).i.toNat + (0 : Nibble).toNat - 1 ≤ 0xFFF) ∧
      ((2 : Nibble).toNat ≠ 0 ∧ 0xFFF < (atI 0xFFF).i.toNat + (2 : Nibble).toNat - 1) ∧
      (0 : Nibble) ≠ 0xF := by
  decide

/-- Both readings of the flag: a lit pixel under a sprite bit, and no pixel lit at all. -/
theorem witness_DrwXorsSprite_flag :
    let s : State := { State.reset with fb := Framebuffer.clear.setPixel 0 0 true }
    (∃ row col, s.pixel row col = true ∧ SpriteCovers s 0 0 1 row col) ∧
      ¬ ∃ row col, State.reset.pixel row col = true ∧ SpriteCovers State.reset 0 0 1 row col := by
  refine ⟨⟨0, 0, by decide, 0, 0, 0xF0, by decide, by decide, by decide, by decide, by decide,
    by decide⟩, ?_⟩
  rintro ⟨row, col, h, -⟩
  have : State.reset.pixel row col = false := by revert row col; decide
  simp [this] at h

theorem witness_DrawTwiceRestoresFramebuffer :
    (0xE : Nibble) ≠ 0xF ∧ (0 : Nibble) ≠ 0xF ∧
      ((0xF : Nibble).toNat = 0 ∨ (atI 0xFF1).i.toNat + (0xF : Nibble).toNat - 1 ≤ 0xFFF) := by
  decide

theorem witness_RetPopsReturnAddress :
    ({ State.reset with stack := [0x206, 0x1000] } : State).stack = [0x206] ++ [0x1000] ∧
      0xFFE < (0x1000 : Word).toNat ∧ State.reset.stack = [] ∧ (1 : Nibble) ≠ 0 := by
  decide

/-- A state that meets the premises of `NextFetchFaults`: RUN, no quit, PC just above 0xFFE. -/
theorem witness_NextFetchFaults :
    let s := withEvents { State.reset with pc := 0xFFF } [.keyDown 0]
    s.es = .run ∧ Event.quit ∉ s.nextInput.events ∧ 0xFFE < s.pc.toNat := by
  decide

theorem witness_JpSetsPc :
    State.reset.pc.toNat = (0x200 : Addr12).toNat ∧ (0xFFF : Addr12).toNat = 0xFFF := by
  decide

theorem witness_SkipsOnImmediate :
    let s : State := { State.reset with pc := 0xFFE }
    (exec (.seImm 0 0) s = .next { s with pc := 0x1002 } ∨
      exec (.sneImm 0 0) s = .next { s with pc := 0x1002 }) ∧ 0xFFE < (0x1002 : Word).toNat :=
  ⟨.inl rfl, by decide⟩

/-- One entry below the depth, at the depth, and an unbounded stack. -/
theorem witness_CallPushesReturnAddress :
    (∀ d, State.reset.cfg.stackDepth = some d → (List.replicate 15 (0x206 : Word)).length < d) ∧
      State.reset.cfg.stackDepth = some (List.replicate 16 (0x206 : Word)).length ∧
      ∀ d, (State.resetWith { Config.defaults with stackDepth := none }).cfg.stackDepth = some d →
        16 < d := by
  refine ⟨?_, by decide, ?_⟩
  · intro d h; cases h; decide
  · intro d h; cases h

theorem witness_CallThenRetComesBack :
    (∀ d, State.reset.cfg.stackDepth = some d → State.reset.stack.length < d) ∧
      ({ State.reset with stack := [0x202], pc := 0x300 } : State).stack =
        (stateOr State.reset (exec (.call 0x300) State.reset)).stack := by
  refine ⟨?_, by decide⟩
  intro d h; cases h; decide

theorem witness_AddImmAddsWithoutFlag : (0xE : Nibble) ≠ 0xF := by decide

theorem witness_AddRegSetsCarry : (0 : Nibble) ≠ 0xF := by decide

theorem witness_SubtractionsSetNotBorrow : (0xE : Nibble) ≠ 0xF := by decide

theorem witness_ShiftsMoveOneBit : (1 : Nibble) ≠ 0xF := by decide

theorem witness_AddISetsOverflowFlag : (0xE : Nibble) ≠ 0xF := by decide

theorem witness_LdBStoresDecimalDigits :
    (atI 0xFFD).i.toNat + 2 ≤ 0xFFF ∧ 0xFFF < (atI 0xFFE).i.toNat + 2 ∧
      (0xFFC < (atI 0xFFD).i.toNat ∨ (atI 0xFFD).i.toNat + 2 < 0xFFC) := by
  decide

theorem witness_LdMemStoresRegisters :
    (atI 0xFF0).i.toNat + (0xF : Nibble).toNat ≤ 0xFFF ∧
      0xFFF < (atI 0xFF1).i.toNat + (0xF : Nibble).toNat ∧ (0xF : Nibble).toNat ≤ (0xF : Nibble).toNat ∧
      (0xFEF < (atI 0xFF0).i.toNat ∨ (atI 0xFF0).i.toNat + (0xF : Nibble).toNat < 0xFEF) := by
  decide

theorem witness_LdVxMemLoadsRegisters :
    (atI 0xFF1).i.toNat + (0xE : Nibble).toNat ≤ 0xFFF ∧
      0xFFF < (atI 0xFF2).i.toNat + (0xE : Nibble).toNat ∧ (0xE : Nibble).toNat ≤ (0xE : Nibble).toNat ∧
      (0xE : Nibble).toNat < (0xF : Nibble).toNat := by
  decide

theorem witness_StoreThenLoadRestoresRegisters :
    let t := stateOr (atI 0xFF0) (exec (.ldMemVx 0xF) (atI 0xFF0))
    (atI 0xFF0).i.toNat + (0xF : Nibble).toNat ≤ 0xFFF ∧ (t.setReg 0 0x55).mem = t.mem ∧
      (t.setReg 0 0x55).i = t.i ∧ (t.setReg 0 0x55).cfg = t.cfg ∧
      (0 : Nibble).toNat ≤ (0xF : Nibble).toNat :=
  ⟨by decide, rfl, rfl, rfl, by decide⟩

theorem witness_KeySkips :
    ((State.reset.setReg 5 0xF).reg 5).toNat = (0xF : Nibble).toNat ∧
      0xF < ((State.reset.setReg 5 0x10).reg 5).toNat := by
  decide

theorem witness_ResetState : 79 < 80 ∧ 80 ≤ 80 ∧ 80 ≤ 0xFFF := by decide

theorem witness_LoadPlacesImage :
    (List.replicate 3584 (0 : Byte)).length ≤ 3584 ∧ 3584 < (List.replicate 3585 (0 : Byte)).length ∧
      3583 < (List.replicate 3584 (0 : Byte)).length ∧ (0x1FF < 0x200 ∨ 0x200 + 3584 ≤ 0x1FF) := by
  simp only [List.length_replicate]
  decide

end Sys2Proof.Tests
end

section
/-! The register instructions that write no flag (spec/42_alu.md, R180 to R185): the decoder on their
words, what writing one result does to the registers, and their statements. -/

namespace Sys2Proof

/-! ### The decoder on the words of groups 6, 7 and 8 -/

theorem decode_ldImm (strict : Bool) (x : Nibble) (nn : Byte) :
    decode strict (wordXNN 0x6 x nn) = .ok (.ldImm x nn) := by
  simp [decode]

theorem decode_addImm (strict : Bool) (x : Nibble) (nn : Byte) :
    decode strict (wordXNN 0x7 x nn) = .ok (.addImm x nn) := by
  simp [decode]

/-- R116: in group 8 the low nibble alone chooses the operation. -/
theorem decode_group8 (strict : Bool) (x y n : Nibble) :
    decode strict (wordXYN 0x8 x y n) = decodeGroup8 x y n := by
  simp [decode]

end Sys2Proof

namespace Sys2Proof.Machine

/-! ### Writing one result -/

section
variable (x y : Nibble) (nn r : Byte) (s : State)

theorem exec_ldImm : exec (.ldImm x nn) s = writeResult x nn s := rfl

theorem exec_addImm : exec (.addImm x nn) s = writeResult x (s.reg x + nn) s := rfl

theorem exec_ldReg : exec (.ldReg x y) s = writeResult x (s.reg y) s := rfl

theorem exec_orReg : exec (.orReg x y) s = writeResult x (s.reg x ||| s.reg y) s := rfl

theorem exec_andReg : exec (.andReg x y) s = writeResult x (s.reg x &&& s.reg y) s := rfl

theorem exec_xorReg : exec (.xorReg x y) s = writeResult x (s.reg x ^^^ s.reg y) s := rfl

theorem regFrame_setReg_advance : RegFrame s (s.setReg x r).advance [x] := by
  refine ⟨fun y hy => ?_, rfl⟩
  have hyx : y ≠ x := by simpa using hy
  simp [hyx]

theorem writeResult_sets_reg :
    ∃ t, writeResult x r s = .next t ∧ t.reg x = r ∧ RegFrame s t [x] :=
  ⟨_, rfl, by simp, regFrame_setReg_advance x r s⟩

end

/-- R31: VF is a plain register to an instruction that writes no flag. -/
theorem RegFrame.flag_unchanged {x : Nibble} {s t : State} (h : RegFrame s t [x]) (hx : x ≠ 0xF) :
    t.reg 0xF = s.reg 0xF :=
  h.1 0xF (by simpa using hx.symm)

/-- For a result given bit by bit: its bits are those of the register afterwards. -/
theorem writeResult_sets_bits {r : Byte} {bit : Nat → Bool} (x : Nibble) (s : State)
    (hr : ∀ k, r.getLsbD k = bit k) :
    ∃ t, writeResult x r s = .next t ∧ RegFrame s t [x] ∧ ∀ k, (t.reg x).getLsbD k = bit k := by
  obtain ⟨t, ht, hx, hframe⟩ := writeResult_sets_reg x r s
  exact ⟨t, ht, hframe, fun k => by rw [hx, hr]⟩

/-! ### The statements -/

/-- Settles O40: LD Vx, nn writes the result nn. -/
theorem ldImmLoadsImmediate : Obligations.LdImmLoadsImmediate := by
  intro strict x nn s
  rw [exec_ldImm]
  exact ⟨decode_ldImm strict x nn, writeResult_sets_reg x nn s⟩

/-- Settles O41: ADD Vx, nn writes the sum of two bytes, and its frame leaves VF alone. -/
theorem addImmAddsWithoutFlag : Obligations.AddImmAddsWithoutFlag := by
  intro strict x nn s
  rw [exec_addImm]
  obtain ⟨t, ht, hx, hframe⟩ := writeResult_sets_reg x (s.reg x + nn) s
  have hsum : (t.reg x).toNat = ((s.reg x).toNat + nn.toNat) % 256 := by
    rw [hx, BitVec.toNat_add]
  exact ⟨decode_addImm strict x nn, t, ht, hsum, hframe.flag_unchanged, hframe⟩

/-- Settles O42: LD Vx, Vy writes the result Vy. -/
theorem ldRegCopies : Obligations.LdRegCopies := by
  intro strict x y s
  rw [exec_ldReg]
  exact ⟨decode_group8 strict x y 0x0, writeResult_sets_reg x (s.reg y) s⟩

/-- Settles O43: each of the three writes a result whose bits are those of the operands combined. -/
theorem logicActsBitwiseWithoutFlag : Obligations.LogicActsBitwiseWithoutFlag := by
  intro strict x y s
  rw [exec_orReg, exec_andReg, exec_xorReg]
  refine ⟨decode_group8 strict x y 0x1, decode_group8 strict x y 0x2,
    decode_group8 strict x y 0x3, ?or, ?and, ?xor⟩
  case or => exact writeResult_sets_bits x s fun k => BitVec.getLsbD_or
  case and => exact writeResult_sets_bits x s fun k => BitVec.getLsbD_and
  case xor => exact writeResult_sets_bits x s fun k => BitVec.getLsbD_xor

end Sys2Proof.Machine
end

section
/-! The index register's load (spec/43_index_memory.md, R210): the decoder on its word, the address it
loads, and its statement. -/

namespace Sys2Proof

theorem decode_ldI (strict : Bool) (nnn : Addr12) :
    decode strict (wordNNN 0xA nnn) = .ok (.ldI nnn) := by
  simp [decode]

end Sys2Proof

namespace Sys2Proof.Machine

theorem zextAddr_toNat (nnn : Addr12) : (zextAddr nnn).toNat = nnn.toNat :=
  BitVec.toNat_setWidth_of_le (by decide)

theorem zextAddr_le (nnn : Addr12) : (zextAddr nnn).toNat ≤ 0xFFF := by
  rw [zextAddr_toNat]
  exact Nat.le_of_lt_succ nnn.isLt

theorem exec_ldI (nnn : Addr12) (s : State) :
    exec (.ldI nnn) s = .next (s.setI (zextAddr nnn)).advance := rfl

theorem setI_advance_eq (a : Word) (s : State) :
    (s.setI a).advance = { s with i := a, pc := s.pc + 2 } := rfl

/-- Settles O48: the loaded word is nnn zero-extended, so it has nnn's value and its 12-bit bound. -/
theorem ldILoadsAddress : Obligations.LdILoadsAddress := by
  intro strict nnn s
  have hvalue : (s.setI (zextAddr nnn)).advance.i.toNat = nnn.toNat := by simp [zextAddr_toNat]
  have hbound : (s.setI (zextAddr nnn)).advance.i.toNat ≤ 0xFFF := by simpa using zextAddr_le nnn
  exact ⟨decode_ldI strict nnn, _, exec_ldI nnn s, hvalue, hbound, setI_advance_eq _ s⟩

end Sys2Proof.Machine
end

section
/-! The timer tick (spec/60_exceptions.md, R265): one counter's step below and above its floor, the
state after a tick and without one, and its statement. -/

namespace Sys2Proof.Machine

/-- A counter at its floor stays there. -/
theorem countDown_of_eq_zero {a : Byte} (ha : a = 0) : countDown a = 0 := if_pos ha

theorem countDown_toNat_add_one {a : Byte} (ha : a ≠ 0) : (countDown a).toNat + 1 = a.toNat := by
  have hpos : a.toNat ≠ 0 := BitVec.toNat_ne.mp ha
  rw [countDown_toNat, Nat.sub_one_add_one hpos]

/-- Both counters take the same step on a tick, and neither looks at the other. -/
theorem State.applyTick_true (s : State) :
    s.applyTick true = { s with dt := countDown s.dt, st := countDown s.st } :=
  s.applyTick_eq true

theorem State.applyTick_false (s : State) : s.applyTick false = s :=
  s.applyTick_eq false

/-- Settles O9: the tick is `countDown` on each timer alone, which takes 1 above 0 and stays at 0. -/
theorem tickCountsTimersDown : Obligations.TickCountsTimersDown := by
  intro s
  rw [s.applyTick_true]
  exact ⟨rfl, countDown_toNat_add_one, countDown_of_eq_zero, countDown_toNat_add_one,
    countDown_of_eq_zero, s.applyTick_false⟩

end Sys2Proof.Machine
end

section
/-! The decoder and the encoder (spec/30_encoding.md, R110 to R123): group 0 by the predicate of
well-formedness, each word from the fields its row reads, the illegal space in numbers, and the
statements about encoding. -/

namespace Sys2Proof

/-! ### Group 0 -/

theorem decode_of_group0 (strict : Bool) {w : Word} (h : (fieldGroup w).toNat = 0) :
    decode strict w = .ok (decodeGroup0 strict w) := by
  simp [decode, h]

/-- R114: group 0 splits by the predicate that also decides which terms are well formed. -/
theorem decodeGroup0_eq (strict : Bool) (w : Word) :
    decodeGroup0 strict w =
      if isGroup0Instr strict (fieldX w) (fieldNN w) then
        if fieldNN w = 0xE0 then .cls (fieldX w) else .ret (fieldX w)
      else .sys (fieldNNN w) := by
  unfold decodeGroup0
  by_cases hs : strict = true ∧ fieldX w ≠ 0
  · have hx : ¬ fieldX w = 0#4 := hs.2
    simp [isGroup0Instr, hs.1, hx]
  · have hq : (!strict || fieldX w == 0) = true := by
      cases strict <;> simp_all
    rw [if_neg hs]
    simp only [isGroup0Instr, hq, Bool.and_true]
    split
    · next h =>
      have hnn : fieldNN w = 0xE0 := BitVec.eq_of_toNat_eq h
      simp [hnn]
    · next h =>
      have hnn : fieldNN w = 0xEE := BitVec.eq_of_toNat_eq h
      simp [hnn]
    · next hE0 hEE =>
      have h1 : fieldNN w ≠ 0xE0#8 := fun e => hE0 (by rw [e]; rfl)
      have h2 : fieldNN w ≠ 0xEE#8 := fun e => hEE (by rw [e]; rfl)
      simp [h1, h2]

/-- The bytes of group 0, whatever the middle nibble. -/
theorem decode_group0_wordXNN (strict : Bool) (q : Nibble) (nn : Byte) :
    decode strict (wordXNN 0x0 q nn) =
      .ok (if isGroup0Instr strict q nn then if nn = 0xE0 then .cls q else .ret q
        else .sys (fieldNNN (wordXNN 0x0 q nn))) := by
  rw [decode_of_group0 strict (by simp), decodeGroup0_eq]
  simp

/-! ### Decoding an encoded instruction -/

theorem decode_encode (strict : Bool) (i : Instr) (h : i.wf strict = true) :
    decode strict (encode i) = .ok i := by
  cases i with
  | cls q =>
    have hg : isGroup0Instr strict q 0xE0 = true := by simpa [Instr.wf, isGroup0Instr] using h
    rw [encode, decode_group0_wordXNN, if_pos hg]
    rfl
  | ret q =>
    have hg : isGroup0Instr strict q 0xEE = true := by simpa [Instr.wf, isGroup0Instr] using h
    rw [encode, decode_group0_wordXNN, if_pos hg]
    rfl
  | sys nnn =>
    have hx : fieldX (wordNNN 0x0 nnn) = nnn.extractLsb' 8 4 := by rw [wordNNN_eq, fieldX_wordXNN]
    have hnn : fieldNN (wordNNN 0x0 nnn) = nnn.extractLsb' 0 8 := by
      rw [wordNNN_eq, fieldNN_wordXNN]
    rw [encode, decode_of_group0 strict (by simp), decodeGroup0_eq, hx, hnn]
    simp_all [Instr.wf]
  | ldReg | orReg | andReg | xorReg | addReg | sub | shr | subn | shl => exact decode_group8 ..
  | seReg | sneReg => simp [encode, decode, decodeLowZero]
  | skp | sknp => simp [encode, decode, decodeGroupE]
  | ldVxDt | ldVxK | ldDtVx | ldStVx | addI | ldF | ldB | ldMemVx | ldVxMem =>
    simp [encode, decode, decodeGroupF]
  | jp | call | ldI | jpV0 => simp [encode, decode]
  | seImm | sneImm | ldImm | addImm | rnd => simp [encode, decode]
  | drw => simp [encode, decode]

/-- Settles O1: the fields the decoder reads of an encoded word are the operands. -/
theorem decodeOfEncode : Obligations.DecodeOfEncode := decode_encode

/-! ### Encoding a decoded word -/

section
variable {w : Word} {g : Nat} (hg : (fieldGroup w).toNat = g)
include hg

theorem fieldGroup_eq_ofNat : fieldGroup w = BitVec.ofNat 4 g := by
  rw [← hg, BitVec.ofNat_toNat, BitVec.setWidth_eq]

theorem wordNNN_of_group : wordNNN (BitVec.ofNat 4 g) (fieldNNN w) = w := by
  rw [← fieldGroup_eq_ofNat hg, wordNNN_fields]

theorem wordXNN_of_group : wordXNN (BitVec.ofNat 4 g) (fieldX w) (fieldNN w) = w := by
  rw [← fieldGroup_eq_ofNat hg, wordXNN_fields]

theorem wordXYN_of_group :
    wordXYN (BitVec.ofNat 4 g) (fieldX w) (fieldY w) (fieldN w) = w := by
  rw [← fieldGroup_eq_ofNat hg, wordXYN_fields]

end

/-- The nibble the outer dispatch leaves to group F. -/
theorem toNat_eq_fifteen {n : Nibble} (h : ∀ g < 15, n.toNat ≠ g) : n.toNat = 15 := by
  have := n.isLt
  have := h n.toNat
  omega

variable {strict : Bool} {i : Instr}

theorem encode_decodeGroup0 {w : Word} (hg : (fieldGroup w).toNat = 0) :
    encode (decodeGroup0 strict w) = w ∧ (decodeGroup0 strict w).wf strict = true := by
  have hw := wordXNN_of_group hg
  rw [decodeGroup0_eq]
  by_cases hi : isGroup0Instr strict (fieldX w) (fieldNN w) = true
  · obtain ⟨hnn, hq⟩ : (fieldNN w = 0xE0 ∨ fieldNN w = 0xEE) ∧
        (!strict || fieldX w == 0) = true := by
      simpa [isGroup0Instr] using hi
    rw [if_pos hi]
    rcases hnn with hnn | hnn
    · rw [hnn] at hw
      rw [if_pos hnn]
      exact ⟨hw, hq⟩
    · rw [hnn] at hw
      rw [if_neg (by rw [hnn]; decide)]
      exact ⟨hw, hq⟩
  · rw [if_neg hi]
    refine ⟨wordNNN_of_group hg, ?_⟩
    simpa [Instr.wf, fieldNNN_high, fieldNNN_low] using hi

theorem encode_decodeLowZero {x y n : Nibble} {j : Instr} {g : Nibble}
    (hj : encode j = wordXYN g x y 0) (hwf : j.wf strict = true)
    (h : decodeLowZero n j = .ok i) : encode i = wordXYN g x y n ∧ i.wf strict = true := by
  unfold decodeLowZero at h
  split at h
  · next hn => cases h; exact ⟨hn ▸ hj, hwf⟩
  · cases h

theorem encode_decodeGroup8 {x y n : Nibble} (h : decodeGroup8 x y n = .ok i) :
    encode i = wordXYN 8 x y n ∧ i.wf strict = true := by
  unfold decodeGroup8 at h
  split at h
  case h_10 => cases h
  all_goals
    next hn =>
      cases h
      exact ⟨congrArg (wordXYN 8 x y) (BitVec.eq_of_toNat_eq hn.symm), rfl⟩

theorem encode_decodeGroupE {x : Nibble} {nn : Byte} (h : decodeGroupE x nn = .ok i) :
    encode i = wordXNN 0xE x nn ∧ i.wf strict = true := by
  unfold decodeGroupE at h
  split at h
  case h_3 => cases h
  all_goals
    next hn =>
      cases h
      exact ⟨congrArg (wordXNN 0xE x) (BitVec.eq_of_toNat_eq hn.symm), rfl⟩

theorem encode_decodeGroupF {x : Nibble} {nn : Byte} (h : decodeGroupF x nn = .ok i) :
    encode i = wordXNN 0xF x nn ∧ i.wf strict = true := by
  unfold decodeGroupF at h
  split at h
  case h_10 => cases h
  all_goals
    next hn =>
      cases h
      exact ⟨congrArg (wordXNN 0xF x) (BitVec.eq_of_toNat_eq hn.symm), rfl⟩

theorem encode_decode {w : Word} (h : decode strict w = .ok i) :
    encode i = w ∧ i.wf strict = true := by
  unfold decode at h
  split at h
  case h_1 hg => cases h; exact encode_decodeGroup0 hg
  case h_2 hg | h_3 hg | h_11 hg | h_12 hg => cases h; exact ⟨wordNNN_of_group hg, rfl⟩
  case h_4 hg | h_5 hg | h_7 hg | h_8 hg | h_13 hg => cases h; exact ⟨wordXNN_of_group hg, rfl⟩
  case h_6 hg | h_10 hg => exact wordXYN_of_group hg ▸ encode_decodeLowZero rfl rfl h
  case h_9 hg => exact wordXYN_of_group hg ▸ encode_decodeGroup8 h
  case h_14 hg => cases h; exact ⟨wordXYN_of_group hg, rfl⟩
  case h_15 hg => exact wordXNN_of_group hg ▸ encode_decodeGroupE h
  case h_16 =>
    have hg : (fieldGroup w).toNat = 15 := toNat_eq_fifteen (by grind)
    exact wordXNN_of_group hg ▸ encode_decodeGroupF h

/-- Settles O2: every row of the decoder keeps the fields its word is made of. -/
theorem encodeOfDecode : Obligations.EncodeOfDecode := fun _ _ _ h => encode_decode h

/-! ### The illegal space -/

theorem fieldGroup_toNat (w : Word) : (fieldGroup w).toNat = w.toNat / 4096 := by
  have := w.isLt
  simp only [fieldGroup, BitVec.extractLsb'_toNat, Nat.shiftRight_eq_div_pow]
  omega

theorem fieldN_toNat (w : Word) : (fieldN w).toNat = w.toNat % 16 := by
  simp [fieldN]

theorem fieldNN_toNat (w : Word) : (fieldNN w).toNat = w.toNat % 256 := by
  simp [fieldNN]

theorem decodeLowZero_unsupported {n : Nibble} :
    decodeLowZero n i = .error .unsupported ↔ n.toNat ≠ 0 := by
  unfold decodeLowZero
  split <;> simp_all [← BitVec.toNat_inj]

theorem decodeGroup8_unsupported {x y n : Nibble} :
    decodeGroup8 x y n = .error .unsupported ↔ n.toNat ∈ [8, 9, 10, 11, 12, 13, 15] := by
  have := n.isLt
  unfold decodeGroup8
  split <;> simp_all
  omega

theorem decodeGroupE_unsupported {x : Nibble} {nn : Byte} :
    decodeGroupE x nn = .error .unsupported ↔ nn.toNat ∉ [0x9E, 0xA1] := by
  unfold decodeGroupE
  split <;> simp_all

theorem decodeGroupF_unsupported {x : Nibble} {nn : Byte} :
    decodeGroupF x nn = .error .unsupported ↔
      nn.toNat ∉ [0x07, 0x0A, 0x15, 0x18, 0x1E, 0x29, 0x33, 0x55, 0x65] := by
  unfold decodeGroupF
  split <;> simp_all

/-- Settles O3: only groups 5, 8, 9, E and F have words without an instruction, each its own. -/
theorem unsupportedWords : Obligations.UnsupportedWords := by
  intro strict w
  rw [← fieldGroup_toNat, ← fieldN_toNat, ← fieldNN_toNat]
  unfold decode
  split
  case h_6 hg | h_10 hg => simp [hg, decodeLowZero_unsupported]
  case h_9 hg => simp only [hg, decodeGroup8_unsupported]; simp
  case h_15 hg => simp only [hg, decodeGroupE_unsupported]; simp
  case h_16 =>
    have hg : (fieldGroup w).toNat = 15 := toNat_eq_fifteen (by grind)
    simp only [hg, decodeGroupF_unsupported]; simp
  all_goals
    next hg => simp [hg]

/-! ### Words given by their parts -/

/-- Settles O4: the two low bytes of group 0 under the strict and the lax reading. -/
theorem groupZeroWords : Obligations.GroupZeroWords := by
  intro strict q nn
  refine ⟨?cls, ?ret, ?sys⟩
  case cls =>
    rintro rfl hq
    exact decode_encode strict (.cls q) (by cases strict <;> simp_all [Instr.wf])
  case ret =>
    rintro rfl hq
    exact decode_encode strict (.ret q) (by cases strict <;> simp_all [Instr.wf])
  case sys =>
    intro h
    have hw : wordXNN 0x0 q nn = wordNNN 0x0 (q ++ nn) := BitVec.append_assoc
    have hg : isGroup0Instr strict q nn = false := by
      rcases h with ⟨hE0, hEE⟩ | ⟨rfl, hq⟩
      · rw [isGroup0Instr, beq_false_of_ne hE0, beq_false_of_ne hEE]; rfl
      · rw [isGroup0Instr, beq_false_of_ne hq]; exact Bool.and_false _
    have h := decode_group0_wordXNN strict q nn
    rw [hg, hw, fieldNNN_wordNNN, ← hw] at h
    exact h

/-- Settles O5: the vectors, run. -/
theorem sampleWordsDecode : Obligations.SampleWordsDecode := by
  unfold Obligations.SampleWordsDecode
  decide

/-- R86: the first of two bytes is the high one. -/
theorem wordOfBytes_eq_ofNat (hi lo : Byte) :
    wordOfBytes hi lo = BitVec.ofNat 16 (256 * hi.toNat + lo.toNat) := by
  apply BitVec.eq_of_toNat_eq
  have := hi.isLt
  have := lo.isLt
  rw [wordOfBytes, BitVec.toNat_append, ← Nat.shiftLeft_add_eq_or_of_lt lo.isLt,
    Nat.shiftLeft_eq, BitVec.toNat_ofNat]
  omega

section decodeBytes
variable {hi lo : Byte} {rest : List Byte} {e : DecodeError}

theorem decodeBytes_of_ok (h : decode strict (wordOfBytes hi lo) = .ok i) :
    decodeBytes strict (hi :: lo :: rest) = .ok (i, rest) := by
  simp [decodeBytes, h]

theorem decodeBytes_of_error (h : decode strict (wordOfBytes hi lo) = .error e) :
    decodeBytes strict (hi :: lo :: rest) = .error e := by
  simp [decodeBytes, h]

theorem decode_of_decodeBytes_ok (h : decodeBytes strict (hi :: lo :: rest) = .ok (i, rest)) :
    decode strict (wordOfBytes hi lo) = .ok i := by
  cases hd : decode strict (wordOfBytes hi lo) with
  | ok j => cases (decodeBytes_of_ok hd).symm.trans h; rfl
  | error e => cases (decodeBytes_of_error hd).symm.trans h

theorem decode_of_decodeBytes_error (h : decodeBytes strict (hi :: lo :: rest) = .error e) :
    decode strict (wordOfBytes hi lo) = .error e := by
  cases hd : decode strict (wordOfBytes hi lo) with
  | ok j => cases (decodeBytes_of_ok hd).symm.trans h
  | error e => cases (decodeBytes_of_error hd).symm.trans h; rfl

end decodeBytes

/-- Settles O6: the decoder reads the number the two bytes make, high byte first. -/
theorem bytesDecodeHighByteFirst : Obligations.BytesDecodeHighByteFirst := by
  intro strict hi lo rest i h
  rw [← wordOfBytes_eq_ofNat] at h
  exact decodeBytes_of_ok h

end Sys2Proof
end

section
/-! What an instruction can do, said once for all of them (spec/10_state.md sections 1 to 9): the
fault of its check, or one of a few effects. The statements about which instruction writes which
state follow case by case. -/

namespace Sys2Proof.Machine

/-! ### The effects -/

/-- The next states of an instruction that takes no fault, by the state it writes. The effects
`regs` and `jump` are those of many instructions: they bound what is written and do not name the
value. -/
inductive Effect (s : State) : Instr → State → Prop
  | regs {i : Instr} (v : Vector Byte 16)
      (hv : ∀ y, writesReg i y = false → State.reg { s with v := v } y = s.reg y) :
      Effect s i { s with v := v, pc := s.pc + 2 }
  | jump {i : Instr} (a : Word) (ha : s.pc.toNat ≤ 0xFFE → a.toNat ≤ 0x10FE) :
      Effect s i { s with pc := a }
  | call (nnn : Addr12) (hfree : s.stackFull = false) :
      Effect s (.call nnn) { s with stack := s.stack ++ [s.pc + 2], pc := zextAddr nnn }
  | ret (q : Nibble) (a : Word) (ha : s.stack.getLast? = some a) :
      Effect s (.ret q) { s with stack := s.stack.dropLast, pc := a }
  | cls (q : Nibble) : Effect s (.cls q) { s with fb := Framebuffer.clear, pc := s.pc + 2 }
  | drw (x y n : Nibble) (fb : Framebuffer) (v : Vector Byte 16)
      (hv : ∀ z, z ≠ 0xF → State.reg { s with v := v } z = s.reg z) :
      Effect s (.drw x y n) { s with fb := fb, v := v, pc := s.pc + 2 }
  | ldI (nnn : Addr12) : Effect s (.ldI nnn) { s with i := zextAddr nnn, pc := s.pc + 2 }
  | ldF (x : Nibble) : Effect s (.ldF x) { s with i := glyphAddr (s.reg x), pc := s.pc + 2 }
  | addI (x : Nibble) (a : Word) (v : Vector Byte 16)
      (hv : ∀ z, z ≠ 0xF → State.reg { s with v := v } z = s.reg z) :
      Effect s (.addI x) { s with i := a, v := v, pc := s.pc + 2 }
  | ldDtVx (x : Nibble) : Effect s (.ldDtVx x) { s with dt := s.reg x, pc := s.pc + 2 }
  | ldStVx (x : Nibble) : Effect s (.ldStVx x) { s with st := s.reg x, pc := s.pc + 2 }
  | ldVxK (x : Nibble) : Effect s (.ldVxK x) { s with es := .waitKey, waitX := x }
  | ldB (x : Nibble) (s' : State)
      (hs : s.storeBytes s.i (decimalDigits (s.reg x)) = some s') :
      Effect s (.ldB x) { s with mem := s'.mem, pc := s.pc + 2 }
  | ldMemVx (x : Nibble) (s' : State) (hs : s.storeBytes s.i (s.regsUpTo x) = some s') :
      Effect s (.ldMemVx x) { s with mem := s'.mem, pc := s.pc + 2 }

variable {s t : State} {i : Instr}

theorem setReg_advance_effect {x : Nibble} (hx : ∀ y, writesReg i y = false → y ≠ x) (a : Byte) :
    Effect s i (s.setReg x a).advance :=
  .regs _ fun y hy => (State.reg_setReg s x y a).trans (if_neg (hx y hy))

theorem setReg_setFlag_advance_effect {x : Nibble}
    (hx : ∀ y, writesReg i y = false → y ≠ x ∧ y ≠ 0xF) (a : Byte) (b : Bool) :
    Effect s i ((s.setReg x a).setFlag b).advance :=
  .regs _ fun y hy =>
    ((s.setReg x a).reg_setFlag b y).trans <| (if_neg (hx y hy).2).trans <|
      (s.reg_setReg x y a).trans (if_neg (hx y hy).1)

theorem skipIf_effect (b : Bool) : Effect s i (s.skipIf b) := by
  refine .jump _ fun hpc => ?_
  cases b
  · show (s.pc + 2).toNat ≤ 0x10FE
    rw [BitVec.toNat_add]; simp; omega
  · show (s.pc + 4).toNat ≤ 0x10FE
    rw [BitVec.toNat_add]; simp; omega

theorem indexedTarget_toNat (a : Byte) (nnn : Addr12) :
    (indexedTarget a nnn).toNat = a.toNat + nnn.toNat := by
  have := a.isLt
  have := nnn.isLt
  rw [indexedTarget, BitVec.toNat_add, zextAddr_toNat, BitVec.toNat_setWidth_of_le (by decide)]
  omega

theorem indexedTarget_le (a : Byte) (nnn : Addr12) : (indexedTarget a nnn).toNat ≤ 0x10FE := by
  have := a.isLt
  have := nnn.isLt
  rw [indexedTarget_toNat]
  omega

/-- An instruction answers with its fault, recorded with its own word, or with an effect. -/
theorem exec_cases (h : exec i s = .next t) :
    (∃ code, code ≠ .none ∧ t = s.raiseFault code (encode i)) ∨ Effect s i t := by
  cases i with
  | sys nnn => cases h; exact .inl ⟨.legacySys, by decide, rfl⟩
  | cls q => cases h; exact .inr (.cls q)
  | ret q =>
    rcases execRet_cases h with rfl | ⟨a, ha, rfl⟩
    · exact .inl ⟨.stackUnderflow, by decide, rfl⟩
    · exact .inr (.ret q a ha)
  | call nnn =>
    rcases execCall_cases h with rfl | ⟨hfree, rfl⟩
    · exact .inl ⟨.stackOverflow, by decide, rfl⟩
    · exact .inr (.call nnn hfree)
  | jp nnn => cases h; exact .inr (.jump _ fun _ => (zextAddr_le nnn).trans (by decide))
  | jpV0 nnn => cases h; exact .inr (.jump _ fun _ => indexedTarget_le _ nnn)
  | seImm | sneImm | seReg | sneReg => cases h; exact .inr (skipIf_effect _)
  | skp x =>
    rcases execSkp_cases h with rfl | ⟨k, -, rfl⟩
    · exact .inl ⟨.keyOutOfRange, by decide, rfl⟩
    · exact .inr (skipIf_effect _)
  | sknp x =>
    rcases execSknp_cases h with rfl | ⟨k, -, rfl⟩
    · exact .inl ⟨.keyOutOfRange, by decide, rfl⟩
    · exact .inr (skipIf_effect _)
  | ldImm | addImm | ldReg | orReg | andReg | xorReg | rnd | ldVxDt =>
    cases h; exact .inr (setReg_advance_effect (by simp [writesReg]) _)
  | addReg | sub | shr | subn | shl =>
    cases h; exact .inr (setReg_setFlag_advance_effect (by simp [writesReg]) _ _)
  | drw x y n =>
    rcases execDrw_cases h with rfl | ⟨rows, -, rfl⟩
    · exact .inl ⟨.dataOutOfRange, by decide, rfl⟩
    · exact .inr (.drw x y n _ _ fun z hz => (State.reg_setFlag _ _ z).trans (if_neg hz))
  | ldI nnn => cases h; exact .inr (.ldI nnn)
  | ldF x => cases h; exact .inr (.ldF x)
  | addI x =>
    cases h
    exact .inr (.addI x _ _ fun z hz => (State.reg_setFlag _ _ z).trans (if_neg hz))
  | ldDtVx x => cases h; exact .inr (.ldDtVx x)
  | ldStVx x => cases h; exact .inr (.ldStVx x)
  | ldVxK x => cases h; exact .inr (.ldVxK x)
  | ldB x =>
    rcases execLdB_cases h with rfl | ⟨s', hs, rfl⟩
    · exact .inl ⟨.dataOutOfRange, by decide, rfl⟩
    · exact .inr (.ldB x s' hs)
  | ldMemVx x =>
    rcases execLdMemVx_cases h with rfl | ⟨s', hs, rfl⟩
    · exact .inl ⟨.dataOutOfRange, by decide, rfl⟩
    · exact .inr (.ldMemVx x s' hs)
  | ldVxMem x =>
    rcases execLdVxMem_cases h with rfl | ⟨vs, hl, rfl⟩
    · exact .inl ⟨.dataOutOfRange, by decide, rfl⟩
    · have hlen : vs.length = x.toNat + 1 := by simp [(State.loadBytes_eq_some.1 hl).2]
      refine .inr (.regs _ fun y hy => (State.reg_setRegs s vs y).trans ?_)
      have hxy : x.toNat < y.toNat := by simpa [writesReg] using hy
      simp [show vs.length ≤ y.toNat by omega]

/-! ### Which instruction writes which state -/

theorem Effect.es_eq_or (h : Effect s i t) : t.es = s.es ∨ t.es = .waitKey := by
  cases h <;> simp

/-- Settles O23: no effect halts the engine, so a halt is the fault of the instruction's check. -/
theorem faultsArePrecise : Obligations.FaultsArePrecise := by
  intro i s t hs h ht
  obtain ⟨code, hcode, rfl⟩ | e := exec_cases h
  · exact ⟨hcode, rfl⟩
  · rcases e.es_eq_or with he | he
    · exact absurd (he ▸ ht) hs
    · exact absurd (he ▸ ht) (by decide)

/-- Settles O24: of the effects, the two stores alone name a new memory. -/
theorem onlyStoresChangeMemory : Obligations.OnlyStoresChangeMemory := by
  intro i s t h
  obtain ⟨code, -, rfl⟩ | e := exec_cases h
  · exact .inr (.inr ⟨rfl, fun _ => rfl⟩)
  · cases e
    case ldB x _ _ => exact .inl ⟨x, rfl⟩
    case ldMemVx x _ _ => exact .inr (.inl ⟨x, rfl⟩)
    all_goals exact .inr (.inr ⟨rfl, fun _ => rfl⟩)

/-- Settles O25: of the effects, clear and draw alone name a new framebuffer. -/
theorem onlyDisplayInstructionsChangeFramebuffer :
    Obligations.OnlyDisplayInstructionsChangeFramebuffer := by
  intro i s t h
  obtain ⟨code, -, rfl⟩ | e := exec_cases h
  · exact .inr (.inr rfl)
  · cases e
    case cls q => exact .inl ⟨q, rfl⟩
    case drw x y n _ _ _ => exact .inr (.inl ⟨x, y, n, rfl⟩)
    all_goals exact .inr (.inr rfl)

/-- Settles O26: each effect on V says which registers it leaves alone. -/
theorem onlyListedRegistersChange : Obligations.OnlyListedRegistersChange := by
  intro i s t y h hy
  obtain ⟨code, -, rfl⟩ | e := exec_cases h
  · rfl
  · cases e
    case regs v hv => exact hv y hy
    case drw v hv => exact hv y (by simpa [writesReg] using hy)
    case addI v hv => exact hv y (by simpa [writesReg] using hy)
    all_goals rfl

/-- Settles O27: each special register is named by the effects of its own writers alone. -/
theorem onlyListedInstructionsChangeSpecialRegisters :
    Obligations.OnlyListedInstructionsChangeSpecialRegisters := by
  intro i s t h
  obtain ⟨code, -, rfl⟩ | e := exec_cases h
  · simp
  · cases e <;> simp

/-! ### State an instruction does not read -/

/-- Values put in place of ST, DT, the key latch and the random byte; `none` leaves one alone. -/
structure Ports where
  st : Option Byte := none
  dt : Option Byte := none
  keys : Option (Vector Bool 16) := none
  rand : Option Byte := none

/-- The state with those values put in. -/
def State.put (s : State) (p : Ports) : State :=
  { s with
    st := p.st.getD s.st
    dt := p.dt.getD s.dt
    keys := p.keys.getD s.keys
    rand := p.rand.getD s.rand }

/-- Whether an instruction neither reads nor replaces the values that are put in: LD ST, Vx replaces
ST; LD DT, Vx and LD Vx, DT use DT; the key skips read the latch and RND the random byte. -/
def Ports.unusedBy (p : Ports) : Instr → Prop
  | .ldStVx _ => p.st = none
  | .ldDtVx _ => p.dt = none
  | .ldVxDt _ => p.dt = none
  | .skp _ => p.keys = none
  | .sknp _ => p.keys = none
  | .rnd _ _ => p.rand = none
  | _ => True

@[simp] theorem State.reg_put (s : State) (p : Ports) (x : Nibble) :
    (s.put p).reg x = s.reg x := rfl

@[simp] theorem State.regsUpTo_put (s : State) (p : Ports) (x : Nibble) :
    (s.put p).regsUpTo x = s.regsUpTo x := rfl

@[simp] theorem State.i_put (s : State) (p : Ports) : (s.put p).i = s.i := rfl

@[simp] theorem State.pc_put (s : State) (p : Ports) : (s.put p).pc = s.pc := rfl

@[simp] theorem State.loadBytes_put (s : State) (p : Ports) (a : Word) (m : Nat) :
    (s.put p).loadBytes a m = s.loadBytes a m := rfl

@[simp] theorem State.storeBytes_put (s : State) (p : Ports) (a : Word) (vs : List Byte) :
    (s.put p).storeBytes a vs = (s.storeBytes a vs).map (·.put p) := by
  unfold State.storeBytes
  split <;> rfl

@[simp] theorem State.push_put (s : State) (p : Ports) (a : Word) :
    (s.put p).push a = (s.push a).map (·.put p) := by
  have hf : (s.put p).stackFull = s.stackFull := rfl
  unfold State.push
  rw [hf]
  split <;> rfl

@[simp] theorem State.pop_put (s : State) (p : Ports) :
    (s.put p).pop = s.pop.map fun r => (r.1, r.2.put p) := by
  have hs : (s.put p).stack = s.stack := rfl
  unfold State.pop
  rw [hs]
  split <;> rfl

/-- An instruction does the same with other values in what it does not use, and keeps them. -/
theorem exec_put {p : Ports} (hp : p.unusedBy i) (h : exec i s = .next t) :
    exec i (s.put p) = .next (t.put p) := by
  cases i with
  | ldStVx x => cases h; obtain ⟨_, dt, keys, rand⟩ := p; cases hp; rfl
  | ldDtVx x => cases h; obtain ⟨st, _, keys, rand⟩ := p; cases hp; rfl
  | ldVxDt x => cases h; obtain ⟨st, _, keys, rand⟩ := p; cases hp; rfl
  | rnd x nn => cases h; obtain ⟨st, dt, keys, _⟩ := p; cases hp; rfl
  | skp x =>
    obtain ⟨st, dt, _, rand⟩ := p; cases hp
    simp only [exec, execSkp, State.reg_put] at h ⊢
    cases hk : keyIndex (s.reg x) <;> rw [hk] at h <;> cases h <;> rfl
  | sknp x =>
    obtain ⟨st, dt, _, rand⟩ := p; cases hp
    simp only [exec, execSknp, State.reg_put] at h ⊢
    cases hk : keyIndex (s.reg x) <;> rw [hk] at h <;> cases h <;> rfl
  | ret q =>
    simp only [exec, execRet, State.pop_put] at h ⊢
    cases hr : s.pop <;> rw [hr] at h <;> cases h <;> rfl
  | call nnn =>
    simp only [exec, execCall, State.pc_put, State.push_put] at h ⊢
    cases hr : s.push (s.pc + 2) <;> rw [hr] at h <;> cases h <;> rfl
  | drw x y n =>
    simp only [exec, execDrw, State.reg_put, State.i_put, State.loadBytes_put] at h ⊢
    cases hr : s.loadBytes s.i n.toNat <;> rw [hr] at h <;> cases h <;> rfl
  | ldVxMem x =>
    simp only [exec, execLdVxMem, State.i_put, State.loadBytes_put] at h ⊢
    cases hr : s.loadBytes s.i (x.toNat + 1) <;> rw [hr] at h <;> cases h <;> rfl
  | ldB x =>
    simp only [exec, execLdB, State.reg_put, State.i_put, State.storeBytes_put] at h ⊢
    cases hr : s.storeBytes s.i (decimalDigits (s.reg x)) <;> rw [hr] at h <;> cases h <;> rfl
  | ldMemVx x =>
    simp only [exec, execLdMemVx, State.i_put, State.regsUpTo_put, State.storeBytes_put] at h ⊢
    cases hr : s.storeBytes s.i (s.regsUpTo x) <;> rw [hr] at h <;> cases h <;> rfl
  | _ => cases h; rfl

/-- Settles O28: each clause puts one value in, and an instruction that replaces a timer does not
look at the old one. -/
theorem unreadStateDoesNotMatter : Obligations.UnreadStateDoesNotMatter := by
  intro i s t h
  refine ⟨?stSet, ?st, ?dtSet, ?dt, ?keys, ?rand⟩
  case stSet => rintro ⟨x, rfl⟩ a; exact h
  case dtSet => rintro ⟨x, rfl⟩ a; exact h
  case st =>
    intro hi a
    refine exec_put (p := { st := some a }) ?_ h
    cases i <;> simp_all [Ports.unusedBy]
  case dt =>
    intro hi a
    refine exec_put (p := { dt := some a }) ?_ h
    cases i <;> simp_all [Ports.unusedBy]
  case keys =>
    intro hi ks
    refine exec_put (p := { keys := some ks }) ?_ h
    cases i <;> simp_all [Ports.unusedBy]
  case rand =>
    intro hi r
    refine exec_put (p := { rand := some r }) ?_ h
    cases i <;> simp_all [Ports.unusedBy]

end Sys2Proof.Machine
end

section
/-! The inputs of an iteration or poll (spec/60_exceptions.md R265 to R274, spec/44_keys_timers.md
R236 and R237): what the events do to the key latch, where a quit or the first key-down falls, and
the statements about one iteration. -/

namespace Sys2Proof.Machine

/-! ### The key latch after events -/

section keyAfter
variable (j k : Nibble) (b : Bool) (evs : List Event)

@[simp] theorem keyAfter_nil : keyAfter j b [] = b := rfl

@[simp] theorem keyAfter_keyDown :
    keyAfter j b (.keyDown k :: evs) = keyAfter j (if j = k then true else b) evs := by
  simp [keyAfter, eq_comm]

@[simp] theorem keyAfter_keyUp :
    keyAfter j b (.keyUp k :: evs) = keyAfter j (if j = k then false else b) evs := by
  simp [keyAfter, eq_comm]

@[simp] theorem keyAfter_quit : keyAfter j b (.quit :: evs) = b := by
  simp [keyAfter]

/-- R270: events after a quit are discarded. -/
theorem keyAfter_append_quit (after : List Event) :
    keyAfter j b (evs ++ .quit :: after) = keyAfter j b evs := by
  induction evs generalizing b with
  | nil => simp
  | cons ev rest ih => cases ev <;> simp [ih]

end keyAfter

@[simp] theorem State.key_keyDown (s : State) (k j : Nibble) :
    (s.keyDown k).key j = if j = k then true else s.key j := by
  unfold State.keyDown
  split <;> simp

/-- R267: the last event of a key decides, whatever the engine state. -/
theorem State.key_applyEvents (s : State) (evs : List Event) (j : Nibble) :
    (s.applyEvents evs).key j = keyAfter j (s.key j) evs := by
  induction evs generalizing s with
  | nil => rfl
  | cons ev rest ih =>
    cases ev with
    | keyDown k => simp [State.applyEvents, ih]
    | keyUp k => simp [State.applyEvents, State.keyUp, ih]
    | quit => simp [State.applyEvents]

/-! ### Events before the deciding one -/

/-- Events with no quit, and in WAIT_KEY with no key-down, move the latch alone. -/
theorem State.applyEvents_latch (s : State) (evs : List Event) (hq : .quit ∉ evs)
    (hw : s.es = .waitKey → ∀ k, .keyDown k ∉ evs) :
    s.applyEvents evs = { s with keys := (s.applyEvents evs).keys } := by
  induction evs generalizing s with
  | nil => rfl
  | cons ev rest ih =>
    have hq' : .quit ∉ rest := fun h => hq (List.mem_cons_of_mem _ h)
    have hw' : s.es = .waitKey → ∀ k, .keyDown k ∉ rest :=
      fun he k h => hw he k (List.mem_cons_of_mem _ h)
    cases ev with
    | keyDown k =>
      have he : s.es ≠ .waitKey := fun he => hw he k List.mem_cons_self
      have hk : s.keyDown k = s.setKey k true := if_neg he
      rw [State.applyEvents, hk, ih (s.setKey k true) hq' hw']
      rfl
    | keyUp k =>
      rw [State.applyEvents, State.keyUp, ih (s.setKey k false) hq' hw']
      rfl
    | quit => exact absurd List.mem_cons_self hq

theorem State.applyEvents_append (s : State) (before rest : List Event) (hq : .quit ∉ before) :
    s.applyEvents (before ++ rest) = (s.applyEvents before).applyEvents rest := by
  induction before generalizing s with
  | nil => rfl
  | cons ev before ih =>
    have hq' : .quit ∉ before := fun h => hq (List.mem_cons_of_mem _ h)
    cases ev with
    | keyDown k => exact ih (s.keyDown k) hq'
    | keyUp k => exact ih (s.keyUp k) hq'
    | quit => exact absurd List.mem_cons_self hq

/-! ### The inputs with and without a halt -/

section applyInputs
variable {s a : State} (h : s.sample.applyEvents s.nextInput.events = a)
include h

theorem State.applyInputs_of_halted (ha : a.es = .halted) : s.applyInputs = a := by
  subst h
  exact if_pos ha

theorem State.applyInputs_of_not_halted (ha : a.es ≠ .halted) :
    s.applyInputs = a.applyTick s.nextInput.tick := by
  subst h
  exact if_neg ha

theorem State.key_applyInputs (j : Nibble) :
    s.applyInputs.key j = keyAfter j (s.key j) s.nextInput.events := by
  rw [show keyAfter j (s.key j) s.nextInput.events = a.key j from
    h ▸ (State.key_applyEvents s.sample s.nextInput.events j).symm]
  by_cases ha : a.es = .halted
  · rw [State.applyInputs_of_halted h ha]
  · rw [State.applyInputs_of_not_halted h ha, State.applyTick_eq]
    rfl

end applyInputs

theorem timerAfter_applyTick (s : State) (tick : Bool) :
    (s.applyTick tick).dt.toNat = timerAfter tick s.dt ∧
      (s.applyTick tick).st.toNat = timerAfter tick s.st := by
  cases tick
  · exact ⟨rfl, rfl⟩
  · exact ⟨countDown_toNat s.dt, countDown_toNat s.st⟩

/-- An iteration or poll whose events only move the latch: its tick moves the timers, and nothing
else changes but the sampled input. -/
theorem State.applyInputs_latch {s : State} (hs : s.es ≠ .halted)
    (hq : .quit ∉ s.nextInput.events)
    (hw : s.es = .waitKey → ∀ k, .keyDown k ∉ s.nextInput.events) :
    s.applyInputs =
      { s with
        keys := s.applyInputs.keys
        dt := s.applyInputs.dt
        st := s.applyInputs.st
        inputs := s.inputs.tail
        drawn := s.drawn + 1
        rand := s.nextInput.rand } ∧
    (∀ k, s.applyInputs.key k = keyAfter k (s.key k) s.nextInput.events) ∧
    s.applyInputs.dt.toNat = timerAfter s.nextInput.tick s.dt ∧
    s.applyInputs.st.toNat = timerAfter s.nextInput.tick s.st := by
  have hl := State.applyEvents_latch s.sample s.nextInput.events hq hw
  have hi := State.applyInputs_of_not_halted hl (by exact hs)
  refine ⟨?_, State.key_applyInputs rfl, ?_⟩
  · rw [hi, State.applyTick_eq]
    rfl
  · rw [hi]
    exact timerAfter_applyTick _ _

/-- Settles O8: in RUN every key event only moves the latch. -/
theorem runInputsTouchLatchAndTimers : Obligations.RunInputsTouchLatchAndTimers := by
  intro s hs hq
  refine State.applyInputs_latch ?_ hq ?_
  · rw [hs]; decide
  · rw [hs]; exact fun h => absurd h (by decide)

/-- Settles O11: without a key-down the events of a poll only move the latch. -/
theorem pollWithoutKeyDownWaitsOn : Obligations.PollWithoutKeyDownWaitsOn := by
  intro s hs hq hd
  exact ⟨_, step_of_waitKey hs, State.applyInputs_latch (by rw [hs]; decide) hq fun _ => hd⟩

/-! ### Quit -/

/-- A step whose inputs halt the engine ends with them, in RUN as in WAIT_KEY. -/
theorem step_of_inputs_halt {s : State} (hs : s.es ≠ .halted)
    (h : s.applyInputs.es = .halted) : step s = .next s.applyInputs := by
  cases hes : s.es with
  | halted => exact absurd hes hs
  | waitKey => exact step_of_waitKey hes
  | run => rw [step_of_run hes, if_pos h]

/-- Settles O10: the events before the quit only move the latch, and the quit is the last to act. -/
theorem quitHaltsAtOnce : Obligations.QuitHaltsAtOnce := by
  intro s before after hs hev hq hw
  have hevents : s.sample.applyEvents s.nextInput.events = (s.sample.applyEvents before).quit := by
    rw [hev, State.applyEvents_append _ _ _ hq]
    rfl
  have hi := State.applyInputs_of_halted hevents rfl
  refine ⟨_, step_of_inputs_halt hs (by rw [hi]; rfl), ?_, fun k => ?_⟩
  · rw [hi, State.applyEvents_latch s.sample before hq hw]
    rfl
  · rw [State.key_applyInputs rfl, hev, keyAfter_append_quit]

/-! ### The first key-down of a poll -/

/-- The events of a poll with a key-down before any quit: those before it move the latch, it
completes the wait, and the engine takes the rest in RUN. -/
theorem State.applyEvents_completes {s : State} {before after : List Event} {k : Nibble}
    (hs : s.es = .waitKey) (hq : .quit ∉ before) (hd : ∀ j, .keyDown j ∉ before) :
    s.applyEvents (before ++ .keyDown k :: after) =
      { s.completeWait k with
        keys := (s.applyEvents (before ++ .keyDown k :: after)).keys
        es := if .quit ∈ after then .halted else .run
        haltCause := if .quit ∈ after then .quit else s.haltCause } := by
  have hl := State.applyEvents_latch s before hq fun _ => hd
  have hes : (s.applyEvents before).es = .waitKey := by rw [hl]; exact hs
  rw [State.applyEvents_append _ _ _ hq, State.applyEvents, State.keyDown, if_pos hes,
    State.applyEvents_run _ after rfl, hl]
  rfl

/-- Settles O12: the wait is complete after the first key-down, and only a quit after it stops the
tick. -/
theorem firstKeyDownCompletesWait : Obligations.FirstKeyDownCompletesWait := by
  intro s before after k hs hev hq hd
  have he := State.applyEvents_completes (s := s.sample) (k := k) (after := after) hs hq hd
  rw [← hev] at he
  have hi : s.applyInputs = (s.sample.applyEvents s.nextInput.events).applyTick
      (s.nextInput.tick && !decide (.quit ∈ after)) := by
    by_cases hquit : .quit ∈ after
    · rw [State.applyInputs_of_halted rfl (by rw [he]; exact if_pos hquit)]
      simp [hquit, State.applyTick_false]
    · rw [State.applyInputs_of_not_halted rfl (by rw [he]; simp [hquit])]
      simp [hquit]
  have hreg (y : Nibble) :
      s.applyInputs.reg y = if y = s.waitX then k.setWidth 8 else s.reg y := by
    rw [hi, State.applyTick_eq, he]
    exact State.reg_completeWait s.sample k y
  have ht := timerAfter_applyTick (s.sample.applyEvents s.nextInput.events)
    (s.nextInput.tick && !decide (.quit ∈ after))
  rw [← hi, he] at ht
  refine ⟨_, step_of_waitKey hs, ?frame, ?waiting, ?others, State.key_applyInputs rfl, ht⟩
  case frame =>
    rw [hi, State.applyTick_eq, he]
    rfl
  case waiting =>
    rw [hreg, if_pos rfl, BitVec.toNat_setWidth_of_le (by decide)]
  case others =>
    intro y hy
    rw [hreg, if_neg hy]

/-! ### Halted -/

/-- Settles O13: a step in HALTED answers the same state, so a run does. -/
theorem haltedStaysHalted : Obligations.HaltedStaysHalted := by
  intro n s hs
  refine ⟨?_, by simp [State.soundOn, hs]⟩
  induction n with
  | zero => rfl
  | succ n ih => rw [run_of_step_next (step_of_halted hs), ih]

/-! ### Every step answers -/

theorem exec_answers_next (i : Instr) (s : State) : ∃ t, exec i s = .next t := by
  cases i with
  | ret q => simp only [exec, execRet]; split <;> exact ⟨_, rfl⟩
  | call nnn => simp only [exec, execCall]; split <;> exact ⟨_, rfl⟩
  | drw x y n => simp only [exec, execDrw]; split <;> exact ⟨_, rfl⟩
  | skp x => simp only [exec, execSkp]; split <;> exact ⟨_, rfl⟩
  | sknp x => simp only [exec, execSknp]; split <;> exact ⟨_, rfl⟩
  | ldB x => simp only [exec, execLdB]; split <;> exact ⟨_, rfl⟩
  | ldMemVx x => simp only [exec, execLdMemVx]; split <;> exact ⟨_, rfl⟩
  | ldVxMem x => simp only [exec, execLdVxMem]; split <;> exact ⟨_, rfl⟩
  | _ => exact ⟨_, rfl⟩

theorem executeOne_answers_next (s : State) : ∃ t, executeOne s = .next t := by
  rcases executeOne_cases s with ⟨_, e⟩ | ⟨w, _, ⟨_, _, e⟩ | ⟨i, _, e⟩⟩
  · exact ⟨_, e⟩
  · exact ⟨_, e⟩
  · rw [e]; exact exec_answers_next i s

/-- Settles O16: by the engine state; in RUN, every instruction and every fault answers. -/
theorem everyStepAnswersNext : Obligations.EveryStepAnswersNext := by
  intro s
  cases hes : s.es with
  | halted => exact ⟨s, step_of_halted hes⟩
  | waitKey => exact ⟨_, step_of_waitKey hes⟩
  | run =>
    rw [step_of_run hes]
    split
    · exact ⟨_, rfl⟩
    · exact executeOne_answers_next _

/-! ### Fetch and decode after the inputs -/

/-- In RUN without a quit, the inputs leave what the fetch reads, and the step executes. -/
theorem step_executes {s : State} (hs : s.es = .run) (hq : .quit ∉ s.nextInput.events) :
    s.applyInputs.pc = s.pc ∧ s.applyInputs.cfg = s.cfg ∧ s.applyInputs.fetch = s.fetch ∧
      step s = executeOne s.applyInputs := by
  obtain ⟨-, hpc, hes⟩ := State.applyInputs_run s hs
  have hcfg : s.applyInputs.cfg = s.cfg := by rw [State.applyInputs_frame]
  have hmem : s.applyInputs.mem = s.mem := by rw [State.applyInputs_frame]
  refine ⟨hpc, hcfg, by simp only [State.fetch, hpc, hcfg, hmem], ?_⟩
  rw [step_of_run hs, hes, if_neg hq]
  rfl

theorem State.fetch_of_readByte {s : State} {hi lo : Byte}
    (h1 : s.readByte s.pc.toNat = some hi) (h2 : s.readByte (s.pc.toNat + 1) = some lo) :
    s.fetch = some (wordOfBytes hi lo) := by
  unfold State.readByte at h1 h2
  unfold State.fetch
  split at h1 <;> split at h2 <;> simp_all
  omega

theorem State.fetch_eq_none {s : State} (h : 0xFFE < s.pc.toNat) : s.fetch = none :=
  if_neg (Nat.not_le.2 h)

section executeOne
variable {s : State} {w : Word} (hf : s.fetch = some w)
include hf

theorem executeOne_of_ok {i : Instr} (hd : decode s.cfg.strictGroup0 w = .ok i) :
    executeOne s = exec i s := by
  simp [executeOne, hf, hd]

theorem executeOne_of_error {e : DecodeError} (hd : decode s.cfg.strictGroup0 w = .error e) :
    executeOne s = .next (s.raiseFault .unsupported w) := by
  simp [executeOne, hf, hd]

end executeOne

/-- Settles O7: the word of the two bytes is the one fetched, after the inputs as before them. -/
theorem stepRunsDecodedInstruction : Obligations.StepRunsDecodedInstruction := by
  intro s hi lo i hs hq h1 h2 hd
  obtain ⟨-, hcfg, hf, hstep⟩ := step_executes hs hq
  rw [State.fetch_of_readByte h1 h2] at hf
  rw [hstep]
  exact executeOne_of_ok hf (hcfg ▸ decode_of_decodeBytes_ok hd)

/-- Settles O14: there is no word to fetch, and the inputs have left PC as it was. -/
theorem fetchAboveRangeFaults : Obligations.FetchAboveRangeFaults := by
  intro s hs hq hpc
  obtain ⟨hpc', -, hf, hstep⟩ := step_executes hs hq
  rw [hstep, executeOne, hf, State.fetch_eq_none hpc, ← hpc']
  rfl

/-- Settles O15: the word of the two bytes is the one fetched, and it decodes to nothing. -/
theorem unsupportedWordFaults : Obligations.UnsupportedWordFaults := by
  intro s hi lo hs hq h1 h2 hd
  obtain ⟨hpc, hcfg, hf, hstep⟩ := step_executes hs hq
  rw [State.fetch_of_readByte h1 h2] at hf
  rw [hstep, executeOne_of_error hf (hcfg ▸ decode_of_decodeBytes_error hd), ← hpc]
  rfl

end Sys2Proof.Machine
end

section
/-! The invariants (spec/10_state.md sections 3, 4 and 9): the canonical memory, the stack and PC
bounds and the fault record, at reset, after a load and over every step. -/

namespace Sys2Proof.Machine

/-! ### Parameters and memory -/

/-- Settles O22: neither the inputs nor an instruction nor a fault writes the parameters. -/
theorem stepKeepsParameters : Obligations.StepKeepsParameters := by
  intro s t h
  refine step_preserves (P := fun u => u.cfg = s.cfg) ?inputs ?fault ?exec rfl h
  case inputs => intro u hu; rw [State.applyInputs_frame]; exact hu
  case fault => intro u _ _ hu; exact hu
  case exec =>
    intro i u v hu hv
    obtain ⟨-, -, -, -, -, -, hcfg, -⟩ := onlyListedInstructionsChangeSpecialRegisters i u v hv
    exact hcfg.trans hu

theorem Effect.memOk {s t : State} {i : Instr} (h : Effect s i t) (hs : s.memOk = true) :
    t.memOk = true := by
  cases h with
  | ldB x s' hstore | ldMemVx x s' hstore =>
    show Memory.wf s.cfg.glyphRom s'.mem = true
    exact store_memory_wf hstore hs
  | _ => exact hs

/-- Settles O17: the two stores write in range, and nothing else writes memory. -/
theorem stepKeepsMemoryCanonical : Obligations.StepKeepsMemoryCanonical := by
  intro s t hs h
  refine step_preserves (P := fun u => u.memOk = true) ?inputs ?fault ?exec hs h
  case inputs => intro u hu; rw [State.applyInputs_frame]; exact hu
  case fault => intro u _ _ hu; exact hu
  case exec =>
    intro i u v hu hv
    obtain ⟨code, -, rfl⟩ | e := exec_cases hv
    · exact hu
    · exact e.memOk hu

/-! ### Every step, with what its parts start from -/

/-- What the inputs of a live engine, fault entry with a code, and every fetched instruction's
effect preserve, every step preserves. -/
theorem step_preserves_live {P : State → Prop}
    (hin : ∀ s, s.es ≠ .halted → P s → P s.applyInputs)
    (hfault : ∀ s code w, code ≠ .none → P s → P (s.raiseFault code w))
    (heffect : ∀ i s t, s.es = .run → s.pc.toNat ≤ 0xFFE → P s → Effect s i t → P t)
    {s t : State} (hs : P s) (h : step s = .next t) : P t := by
  cases hes : s.es with
  | halted => rw [step_of_halted hes] at h; cases h; exact hs
  | waitKey => rw [step_of_waitKey hes] at h; cases h; exact hin s (by simp [hes]) hs
  | run =>
    have hP : P s.applyInputs := hin s (by simp [hes]) hs
    rw [step_of_run hes] at h
    split at h
    · cases h; exact hP
    · next hlive =>
      have hrun : s.applyInputs.es = .run := by
        rw [(State.applyInputs_run s hes).2.2] at hlive ⊢
        split <;> simp_all
      rcases executeOne_cases s.applyInputs with ⟨_, e⟩ | ⟨w, hf, ⟨_, _, e⟩ | ⟨i, _, e⟩⟩
      · rw [e] at h; cases h; exact hfault _ _ _ (by decide) hP
      · rw [e] at h; cases h; exact hfault _ _ _ (by decide) hP
      · rw [e] at h
        have hpc : s.applyInputs.pc.toNat ≤ 0xFFE := by
          by_contra hgt
          rw [State.fetch_eq_none (Nat.lt_of_not_le hgt)] at hf
          cases hf
        obtain ⟨code, hcode, rfl⟩ | he := exec_cases h
        · exact hfault _ _ _ hcode hP
        · exact heffect i _ _ hrun hpc hP he

/-! ### The stack and PC -/

theorem State.stackOk_iff (s : State) :
    s.stackOk = true ↔ ∀ d, s.cfg.stackDepth = some d → s.stack.length ≤ d := by
  unfold State.stackOk
  split <;> simp_all

theorem State.pcOk_iff (s : State) :
    s.pcOk = true ↔
      s.pc.toNat ≤ 0x10FE ∧ (s.es = .waitKey → s.pc.toNat ≤ 0xFFE) ∧
        ∀ a ∈ s.stack, a.toNat ≤ 0x1000 := by
  simp only [State.pcOk, Bool.and_eq_true, decide_eq_true_eq, List.all_eq_true, and_assoc]

theorem State.stackFull_eq_false (s : State) :
    s.stackFull = false ↔ ∀ d, s.cfg.stackDepth = some d → s.stack.length < d := by
  unfold State.stackFull
  split <;> simp_all

theorem pc_add_two_toNat {a : Word} (h : a.toNat ≤ 0xFFE) : (a + 2).toNat ≤ 0x1000 := by
  rw [BitVec.toNat_add]
  simp
  omega

/-- A key wait completes at an address in fetch range, and the engine is then in RUN. -/
theorem State.pcOk_keyDown {s : State} (k : Nibble) (h : s.pcOk = true) :
    (s.keyDown k).pcOk = true := by
  unfold State.keyDown
  split
  · next hw =>
    rw [State.pcOk_iff] at h ⊢
    obtain ⟨-, hfetch, hstack⟩ := h
    have := pc_add_two_toNat (hfetch hw)
    refine ⟨?_, fun he => ?_, hstack⟩
    · exact this.trans (by decide)
    · exact absurd he (by simp)
  · exact h

theorem State.pcOk_applyEvents {s : State} (evs : List Event) (h : s.pcOk = true) :
    (s.applyEvents evs).pcOk = true := by
  induction evs generalizing s with
  | nil => exact h
  | cons ev rest ih =>
    cases ev with
    | keyDown k => exact ih (State.pcOk_keyDown k h)
    | keyUp k => exact ih h
    | quit =>
      rw [State.pcOk_iff] at h
      exact (State.pcOk_iff _).2 ⟨h.1, fun he => absurd he (by simp [State.applyEvents]), h.2.2⟩

theorem State.pcOk_applyInputs {s : State} (h : s.pcOk = true) : s.applyInputs.pcOk = true := by
  have he : (s.sample.applyEvents s.nextInput.events).pcOk = true := State.pcOk_applyEvents _ h
  by_cases ha : (s.sample.applyEvents s.nextInput.events).es = .halted
  · rw [State.applyInputs_of_halted rfl ha]; exact he
  · rw [State.applyInputs_of_not_halted rfl ha, State.applyTick_eq]; exact he

theorem Effect.stackOk {s t : State} {i : Instr} (h : Effect s i t) (hs : s.stackOk = true) :
    t.stackOk = true := by
  cases h with
  | call nnn hfree =>
    rw [State.stackFull_eq_false] at hfree
    rw [State.stackOk_iff]
    intro d hd
    have := hfree d hd
    simp only [List.length_append, List.length_singleton]
    omega
  | ret q a ha =>
    rw [State.stackOk_iff] at hs ⊢
    intro d hd
    have := hs d hd
    simp only [List.length_dropLast]
    omega
  | _ => exact hs

theorem Effect.pcOk {s t : State} {i : Instr} (h : Effect s i t) (hrun : s.es = .run)
    (hpc : s.pc.toNat ≤ 0xFFE) (hs : s.pcOk = true) : t.pcOk = true := by
  have hnext := pc_add_two_toNat hpc
  rw [State.pcOk_iff] at hs ⊢
  obtain ⟨-, -, hstack⟩ := hs
  have hwait (p : Prop) : s.es = .waitKey → p := fun hw => absurd (hrun.symm.trans hw) (by decide)
  cases h with
  | jump a ha => exact ⟨ha hpc, hwait _, hstack⟩
  | call nnn hfree =>
    refine ⟨(zextAddr_le nnn).trans (by decide), hwait _, fun a ha => ?_⟩
    rcases List.mem_append.1 ha with ha | ha
    · exact hstack a ha
    · rw [List.mem_singleton.1 ha]; exact hnext
  | ret q a ha =>
    refine ⟨(hstack a (List.mem_of_getLast? ha)).trans (by decide), hwait _, fun b hb => ?_⟩
    exact hstack b (List.mem_of_mem_dropLast hb)
  | ldVxK x => exact ⟨hpc.trans (by decide), fun _ => hpc, hstack⟩
  | _ => exact ⟨hnext.trans (by decide), hwait _, hstack⟩

/-- Settles O18: an instruction is fetched at 0xFFE or below, so its successors and a return address
stay in bounds, and a CALL finds room. -/
theorem stepKeepsStackAndPcBounds : Obligations.StepKeepsStackAndPcBounds := by
  intro s t hstack hpc h
  refine step_preserves_live (P := fun u => u.stackOk = true ∧ u.pcOk = true)
    ?inputs ?fault ?effect ⟨hstack, hpc⟩ h
  case inputs =>
    rintro u - ⟨hs, hp⟩
    refine ⟨?_, State.pcOk_applyInputs hp⟩
    rw [State.applyInputs_frame]
    exact hs
  case fault =>
    rintro u code w - ⟨hs, hp⟩
    rw [State.pcOk_iff] at hp
    exact ⟨hs, (State.pcOk_iff _).2 ⟨hp.1, fun he => absurd he (by simp), hp.2.2⟩⟩
  case effect =>
    rintro i u v hrun hfetched ⟨hs, hp⟩ e
    exact ⟨e.stackOk hs, e.pcOk hrun hfetched hp⟩

/-! ### The fault record -/

/-- While the engine is not halted, the record is the empty one. -/
theorem State.recordOk_of_live {s : State} (hs : s.es ≠ .halted) :
    s.recordOk = true ↔
      s.haltCause = .none ∧ s.faultCode = .none ∧ s.faultPc = 0 ∧ s.faultOp = 0 := by
  unfold State.recordOk
  by_cases hc : s.haltCause = .none <;> simp [hs, hc]

theorem State.recordOk_raiseFault (s : State) {code : FaultCode} (w : Word)
    (hcode : code ≠ .none) : (s.raiseFault code w).recordOk = true := by
  simp [State.recordOk, hcode]

/-- Events halt a live engine by a quit, or leave it live with its halt cause. -/
theorem State.applyEvents_live {s : State} (evs : List Event) (hs : s.es ≠ .halted) :
    ((s.applyEvents evs).es = .halted ∧ (s.applyEvents evs).haltCause = .quit) ∨
      ((s.applyEvents evs).es ≠ .halted ∧ (s.applyEvents evs).haltCause = s.haltCause) := by
  induction evs generalizing s with
  | nil => exact .inr ⟨hs, rfl⟩
  | cons ev rest ih =>
    cases ev with
    | keyDown k =>
      have hk : (s.keyDown k).es ≠ .halted ∧ (s.keyDown k).haltCause = s.haltCause := by
        unfold State.keyDown
        split
        · exact ⟨by simp, rfl⟩
        · exact ⟨hs, rfl⟩
      rw [← hk.2]
      exact ih hk.1
    | keyUp k => exact ih hs
    | quit => exact .inl ⟨rfl, rfl⟩

theorem State.applyInputs_live {s : State} (hs : s.es ≠ .halted) :
    (s.applyInputs.es = .halted ∧ s.applyInputs.haltCause = .quit) ∨
      (s.applyInputs.es ≠ .halted ∧ s.applyInputs.haltCause = s.haltCause) := by
  rcases State.applyEvents_live (s := s.sample) s.nextInput.events hs with h | h
  · rw [State.applyInputs_of_halted rfl h.1]; exact .inl h
  · rw [State.applyInputs_of_not_halted rfl h.1, State.applyTick_eq]; exact .inr h

theorem State.recordOk_applyInputs {s : State} (hs : s.es ≠ .halted) (h : s.recordOk = true) :
    s.applyInputs.recordOk = true := by
  obtain ⟨hcause, hrest⟩ := (State.recordOk_of_live hs).1 h
  have hrest' : s.applyInputs.faultCode = .none ∧ s.applyInputs.faultPc = 0 ∧
      s.applyInputs.faultOp = 0 := by
    rw [State.applyInputs_frame]; exact hrest
  rcases State.applyInputs_live hs with ⟨hes, hquit⟩ | ⟨hes, hsame⟩
  · simp [State.recordOk, hes, hquit, hrest']
  · exact (State.recordOk_of_live hes).2 ⟨hsame.trans hcause, hrest'⟩

theorem Effect.recordOk {s t : State} {i : Instr} (h : Effect s i t) (hrun : s.es = .run)
    (hs : s.recordOk = true) : t.recordOk = true := by
  have hlive : s.es ≠ .halted := by rw [hrun]; decide
  have htlive : t.es ≠ .halted := by rcases h.es_eq_or with he | he <;> simp [he, hlive]
  rw [State.recordOk_of_live hlive] at hs
  rw [State.recordOk_of_live htlive]
  cases h <;> exact hs

/-- Settles O19: the record is empty until a quit or a fault fills it, and HALTED keeps it. -/
theorem stepKeepsFaultRecord : Obligations.StepKeepsFaultRecord := by
  intro s t hs h
  refine step_preserves_live (P := fun u => u.recordOk = true) ?inputs ?fault ?effect hs h
  case inputs => exact fun u hlive hu => State.recordOk_applyInputs hlive hu
  case fault => exact fun u code w hcode _ => u.recordOk_raiseFault w hcode
  case effect => exact fun i u v hrun _ hu e => e.recordOk hrun hu

/-! ### Reset and load -/

/-- Settles O21: the image is stored in range into an empty memory, and the other invariants hold of
the reset values and of a load error. -/
theorem loadMeetsInvariants : Obligations.LoadMeetsInvariants := by
  intro p image
  have hstack (s : State) (h : s.stack = []) : s.stackOk = true := by
    rw [State.stackOk_iff, h]
    exact fun d _ => Nat.zero_le d
  unfold State.load
  split
  · exact ⟨rfl, hstack _ rfl, rfl, rfl⟩
  · next h => exact ⟨Memory.writeBytes_wf rfl (by omega), hstack _ rfl, rfl, rfl⟩

/-- Settles O20: the reset state is a load of the empty image. -/
theorem resetMeetsInvariants : Obligations.ResetMeetsInvariants :=
  loadMeetsInvariants Config.defaults []

end Sys2Proof.Machine
end

section
/-! Control transfer and skips (spec/41_flow.md, spec/44_keys_timers.md R230 and R231): the call
stack on a CALL and a RET, the skips by their condition, the fetch fault ahead of a PC above 0xFFE,
and the statements. The word of each instruction decodes by `decode_encode`. -/

namespace Sys2Proof.Machine

/-! ### Fetch faults ahead -/

theorem nextFetchFaults_of_pc {s : State} (h : 0xFFE < s.pc.toNat) : NextFetchFaults s :=
  fun hs hq => ⟨_, fetchAboveRangeFaults s hs hq h, rfl, rfl, rfl, rfl, rfl⟩

/-! ### Control transfer -/

/-- Settles O33: SYS has no check and no effect but its fault. -/
theorem sysFaultsAlways : Obligations.SysFaultsAlways := fun _ _ => rfl

/-- Settles O34: the target is nnn zero-extended. -/
theorem jpSetsPc : Obligations.JpSetsPc := by
  intro strict nnn s
  refine ⟨decode_encode strict (.jp nnn) rfl, s.setPc (zextAddr nnn), rfl, zextAddr_toNat nnn, rfl,
    fun hself => ?_, fun htop => ?_⟩
  · have hpc : zextAddr nnn = s.pc :=
      BitVec.eq_of_toNat_eq ((zextAddr_toNat nnn).trans hself.symm)
    rw [hpc]
    rfl
  · refine nextFetchFaults_of_pc ?_
    rw [State.setPc_pc, zextAddr_toNat, htop]
    decide

/-- Settles O39: the target is the exact sum of V0 and nnn. -/
theorem jpV0AddsV0 : Obligations.JpV0AddsV0 := fun strict nnn s =>
  ⟨decode_encode strict (.jpV0 nnn) rfl, s.setPc (indexedTarget (s.reg 0) nnn), rfl,
    indexedTarget_toNat _ nnn, indexedTarget_le _ nnn, rfl⟩

theorem exec_call_of_free {nnn : Addr12} {s : State} (h : s.stackFull = false) :
    exec (.call nnn) s =
      .next { s with stack := s.stack ++ [s.pc + 2], pc := zextAddr nnn } := by
  simp [exec, execCall, State.push, h, State.setPc]

theorem exec_call_of_full {nnn : Addr12} {s : State} (h : s.stackFull = true) :
    exec (.call nnn) s = .next (s.raiseFault .stackOverflow (encode (.call nnn))) := by
  simp [exec, execCall, State.push, h]

/-- Settles O35: CALL pushes exactly when the stack is not full. -/
theorem callPushesReturnAddress : Obligations.CallPushesReturnAddress := by
  intro strict nnn s
  refine ⟨decode_encode strict (.call nnn) rfl, fun hroom => ?_, fun hfull => ?_⟩
  · exact ⟨_, exec_call_of_free ((State.stackFull_eq_false s).2 hroom), rfl, zextAddr_toNat nnn,
      rfl⟩
  · exact exec_call_of_full (by simp [State.stackFull, hfull])

theorem exec_ret_of_push {q : Nibble} {s : State} {below : List Word} {a : Word}
    (h : s.stack = below ++ [a]) :
    exec (.ret q) s = .next { s with stack := below, pc := a } := by
  simp [exec, execRet, State.pop, h, State.setPc]

theorem exec_ret_of_empty {q : Nibble} {s : State} (h : s.stack = []) :
    exec (.ret q) s = .next (s.raiseFault .stackUnderflow (encode (.ret q))) := by
  simp [exec, execRet, State.pop, h]

/-- Under `STRICT_GROUP0` a word of CLS or RET has middle nibble 0, since what decodes is well
formed. -/
theorem strict_decode_ne {i : Instr} {w : Word} (h : i.wf true = false) : decode true w ≠ .ok i :=
  fun hd => absurd (encode_decode hd).2 (by simp [h])

/-- Settles O32: RET pops the last element of the stack, or finds it empty. -/
theorem retPopsReturnAddress : Obligations.RetPopsReturnAddress := by
  intro q s
  refine ⟨decode_encode false (.ret q) rfl, decode_encode true (.ret 0) rfl, fun hq => ?_,
    fun below a hs => ⟨exec_ret_of_push hs, fun ha => nextFetchFaults_of_pc ha⟩, exec_ret_of_empty⟩
  exact strict_decode_ne (by simpa [Instr.wf] using hq)

/-- Settles O36: what CALL pushes is on top of the stack RET finds. -/
theorem callThenRetComesBack : Obligations.CallThenRetComesBack := by
  intro nnn q s hroom
  obtain ⟨-, hcall, -⟩ := callPushesReturnAddress false nnn s
  obtain ⟨t, ht, hstack, -⟩ := hcall hroom
  exact ⟨t, ht, fun u hu => ⟨_, exec_ret_of_push (hu.trans hstack), rfl, rfl⟩⟩

/-! ### Skips -/

theorem skipIf_beq (s : State) (a b : Byte) :
    s.skipIf (a == b) = { s with pc := if a = b then s.pc + 4 else s.pc + 2 } := by
  by_cases h : a = b <;> simp [State.skipIf, State.setPc, h]

theorem skipIf_bne (s : State) (a b : Byte) :
    s.skipIf (a != b) = { s with pc := if a = b then s.pc + 2 else s.pc + 4 } := by
  by_cases h : a = b <;> simp [State.skipIf, State.setPc, h]

/-- Settles O37: each skip moves PC by its comparison alone. -/
theorem skipsOnImmediate : Obligations.SkipsOnImmediate := fun strict x nn s =>
  ⟨decode_encode strict (.seImm x nn) rfl, decode_encode strict (.sneImm x nn) rfl,
    congrArg _ (skipIf_beq s (s.reg x) nn), congrArg _ (skipIf_bne s (s.reg x) nn),
    fun _ _ h => nextFetchFaults_of_pc h⟩

/-- Settles O38: each skip moves PC by its comparison alone. -/
theorem skipsOnRegister : Obligations.SkipsOnRegister := fun strict x y s =>
  ⟨decode_encode strict (.seReg x y) rfl, decode_encode strict (.sneReg x y) rfl,
    congrArg _ (skipIf_beq s (s.reg x) (s.reg y)), congrArg _ (skipIf_bne s (s.reg x) (s.reg y))⟩

section keySkips
variable {s : State} {x : Nibble}

theorem keyIndex_of_toNat_eq {a : Byte} {k : Nibble} (h : a.toNat = k.toNat) :
    keyIndex a = some k := by
  have := k.isLt
  refine keyIndex_eq_some.2 ⟨by omega, BitVec.eq_of_toNat_eq ?_⟩
  rw [BitVec.toNat_setWidth, h, Nat.mod_eq_of_lt this]

theorem exec_skp_of_key {k : Nibble} (h : keyIndex (s.reg x) = some k) :
    exec (.skp x) s = .next (s.skipIf (s.key k)) := by
  simp [exec, execSkp, h]

theorem exec_sknp_of_key {k : Nibble} (h : keyIndex (s.reg x) = some k) :
    exec (.sknp x) s = .next (s.skipIf (!s.key k)) := by
  simp [exec, execSknp, h]

theorem exec_skp_of_no_key (h : keyIndex (s.reg x) = none) :
    exec (.skp x) s = .next (s.raiseFault .keyOutOfRange (encode (.skp x))) := by
  simp [exec, execSkp, h]

theorem exec_sknp_of_no_key (h : keyIndex (s.reg x) = none) :
    exec (.sknp x) s = .next (s.raiseFault .keyOutOfRange (encode (.sknp x))) := by
  simp [exec, execSknp, h]

end keySkips

/-- Settles O55: a byte names a key exactly up to 0xF. -/
theorem keySkips : Obligations.KeySkips := by
  intro strict x s
  refine ⟨decode_encode strict (.skp x) rfl, decode_encode strict (.sknp x) rfl, fun k hk => ?_,
    fun hk => ?_⟩
  · have hi := keyIndex_of_toNat_eq hk
    rw [exec_skp_of_key hi, exec_sknp_of_key hi]
    cases s.key k <;> exact ⟨rfl, rfl⟩
  · have hi := keyIndex_eq_none.2 hk
    exact ⟨exec_skp_of_no_key hi, exec_sknp_of_no_key hi⟩

end Sys2Proof.Machine
end

section
/-! Results with a flag and the index register (spec/42_alu.md section 2, spec/43_index_memory.md
R211 and R212): what an instruction that writes a flag last leaves, the flags in numbers, and the
statements. -/

namespace Sys2Proof.Machine

/-! ### Results with a flag -/

/-- What an instruction with a flag answers: the flag is written last, so for x = F it is what stays
(spec/10_state.md R40). -/
theorem writeResultFlag_sets_reg (x : Nibble) (r : Byte) (b : Bool) (s : State) :
    ∃ t, writeResultFlag x r b s = .next t ∧ (x ≠ 0xF → t.reg x = r) ∧
      t.reg 0xF = (if b then 1 else 0) ∧ RegFrame s t [x, 0xF] := by
  refine ⟨_, rfl, fun hx => ?_, ?_, fun y hy => ?_, rfl⟩
  · rw [State.advance_reg, State.reg_setFlag, if_neg hx, State.reg_setReg, if_pos rfl]
  · rw [State.advance_reg, State.reg_setFlag, if_pos rfl]
  · obtain ⟨hx, hF⟩ : y ≠ x ∧ y ≠ 0xF := by simpa using hy
    rw [State.advance_reg, State.reg_setFlag, if_neg hF, State.reg_setReg, if_neg hx]

/-- Settles O44: the result is the sum modulo 256 and the flag its carry. -/
theorem addRegSetsCarry : Obligations.AddRegSetsCarry := by
  intro strict x y s
  obtain ⟨t, ht, hx, hF, hframe⟩ := writeResultFlag_sets_reg x (s.reg x + s.reg y)
    (carryFlag (s.reg x) (s.reg y)) s
  refine ⟨decode_encode strict (.addReg x y) rfl, t, ht, fun hxF => ?_, ?_, hframe⟩
  · rw [hx hxF, BitVec.toNat_add]
  · simpa [carryFlag] using hF

/-- A difference of bytes, as an integer modulo 256. -/
theorem toNat_sub_emod (a b : Byte) : ((a - b).toNat : Int) = (a.toNat - b.toNat : Int) % 256 := by
  have := a.isLt
  have := b.isLt
  rw [BitVec.toNat_sub]
  omega

/-- Settles O45: each result is its difference modulo 256 and the flag its comparison. -/
theorem subtractionsSetNotBorrow : Obligations.SubtractionsSetNotBorrow := by
  intro strict x y s
  refine ⟨decode_encode strict (.sub x y) rfl, decode_encode strict (.subn x y) rfl, ?sub, ?subn⟩
  case sub =>
    obtain ⟨t, ht, hx, hF, hframe⟩ := writeResultFlag_sets_reg x (s.reg x - s.reg y)
      (notBorrowFlag (s.reg x) (s.reg y)) s
    refine ⟨t, ht, fun hxF => ?_, ?_, hframe⟩
    · rw [hx hxF, toNat_sub_emod]
    · simpa [notBorrowFlag] using hF
  case subn =>
    obtain ⟨t, ht, hx, hF, hframe⟩ := writeResultFlag_sets_reg x (s.reg y - s.reg x)
      (notBorrowFlag (s.reg y) (s.reg x)) s
    refine ⟨t, ht, fun hxF => ?_, ?_, hframe⟩
    · rw [hx hxF, toNat_sub_emod]
    · simpa [notBorrowFlag] using hF

theorem shiftRightFlag_toNat (a : Byte) :
    (if shiftRightFlag a then 1 else 0 : Byte).toNat = a.toNat % 2 := by
  rw [shiftRightFlag, BitVec.getLsbD, Nat.testBit_zero]
  rcases Nat.mod_two_eq_zero_or_one a.toNat with h | h <;> simp [h]

theorem shiftLeftFlag_toNat (a : Byte) :
    (if shiftLeftFlag a then 1 else 0 : Byte).toNat = a.toNat / 128 := by
  have := a.isLt
  rw [shiftLeftFlag, BitVec.getLsbD, Nat.testBit_eq_decide_div_mod_eq]
  rcases (by omega : a.toNat / 128 = 0 ∨ a.toNat / 128 = 1) with h | h <;> simp [h]

/-- Settles O46: each result is the shift of Vx by one and the flag the bit that leaves it. -/
theorem shiftsMoveOneBit : Obligations.ShiftsMoveOneBit := by
  intro strict x y s
  refine ⟨decode_encode strict (.shr x y) rfl, decode_encode strict (.shl x y) rfl, ?shr, ?shl⟩
  case shr =>
    obtain ⟨t, ht, hx, hF, hframe⟩ := writeResultFlag_sets_reg x (s.reg x >>> 1)
      (shiftRightFlag (s.reg x)) s
    refine ⟨t, ht, fun hxF => ?_, ?_, hframe⟩
    · rw [hx hxF, BitVec.toNat_ushiftRight, Nat.shiftRight_eq_div_pow]
    · rw [hF, shiftRightFlag_toNat]
  case shl =>
    obtain ⟨t, ht, hx, hF, hframe⟩ := writeResultFlag_sets_reg x (s.reg x <<< 1)
      (shiftLeftFlag (s.reg x)) s
    refine ⟨t, ht, fun hxF => ?_, ?_, hframe⟩
    · rw [hx hxF, BitVec.toNat_shiftLeft, Nat.shiftLeft_eq, Nat.mul_comm]
    · rw [hF, shiftLeftFlag_toNat]

/-- Settles O47: the result is the random byte and the mask combined bit by bit. -/
theorem rndMasksRandomByte : Obligations.RndMasksRandomByte := fun strict x nn s =>
  ⟨decode_encode strict (.rnd x nn) rfl,
    writeResult_sets_bits x s fun _ => BitVec.getLsbD_and (x := s.rand) (y := nn)⟩

/-! ### The index register -/

/-- Settles O49: I gets the sum modulo 2^16 and VF the comparison of the exact sum. -/
theorem addISetsOverflowFlag : Obligations.AddISetsOverflowFlag := by
  intro strict x s
  refine ⟨decode_encode strict (.addI x) rfl, _, rfl, ?sum, ?flag, fun y hy => ?other, rfl⟩
  case sum =>
    show (s.i + (s.reg x).setWidth 16).toNat = _
    rw [BitVec.toNat_add, BitVec.toNat_setWidth_of_le (by decide)]
  case flag => simp [addressFlag]
  case other => rw [State.advance_reg, State.reg_setFlag, if_neg hy, State.setI_reg]

theorem glyphAddr_toNat (a : Byte) : (glyphAddr a).toNat = 5 * a.toNat := by
  have := a.isLt
  rw [glyphAddr, BitVec.toNat_mul, BitVec.toNat_setWidth_of_le (by decide)]
  exact Nat.mod_eq_of_lt (by simp; omega)

/-- Settles O50: five times a byte does not wrap. -/
theorem ldFPointsAtGlyph : Obligations.LdFPointsAtGlyph := fun strict x s =>
  ⟨decode_encode strict (.ldF x) rfl, _, rfl, glyphAddr_toNat (s.reg x), rfl⟩

end Sys2Proof.Machine
end

section
/-! The timer instructions and the key wait's entry (spec/44_keys_timers.md R232 to R235). -/

namespace Sys2Proof.Machine

/-- Settles O56: the timers are written whole, and the sound reads ST and the engine state. -/
theorem timersAreSet : Obligations.TimersAreSet := fun strict x s =>
  ⟨decode_encode strict (.ldDtVx x) rfl, decode_encode strict (.ldStVx x) rfl, rfl, _, rfl, rfl,
    by simp [State.soundOn]⟩

/-- Settles O57: the result is the delay timer. -/
theorem ldVxDtReadsDelayTimer : Obligations.LdVxDtReadsDelayTimer := fun strict x s =>
  ⟨decode_encode strict (.ldVxDt x) rfl, writeResult_sets_reg x s.dt s⟩

/-- Settles O58: the wait is entered with nothing else written. -/
theorem ldVxKEntersWait : Obligations.LdVxKEntersWait := fun strict x _ =>
  ⟨decode_encode strict (.ldVxK x) rfl, rfl⟩

end Sys2Proof.Machine
end

section
/-! Blocks of memory in range and out of it (spec/20_memory.md R92): what a loaded block holds and
what a stored one leaves, byte by byte. -/

namespace Sys2Proof.Machine

variable {s : State} {base : Word} {m : Nat}

theorem State.loadBytes_of_inRange (h : inRange base m = true) :
    ∃ vs, s.loadBytes base m = some vs := ⟨_, if_pos h⟩

theorem State.loadBytes_of_out (h : ¬ inRange base m = true) : s.loadBytes base m = none :=
  if_neg h

theorem State.storeBytes_of_out {vs : List Byte} (h : ¬ inRange base vs.length = true) :
    s.storeBytes base vs = none := if_neg h

/-- A loaded block, byte by byte. -/
theorem State.getElem?_of_loadBytes {vs : List Byte} (h : s.loadBytes base m = some vs) (k : Nat) :
    vs[k]? = if k < m then s.readByte (base.toNat + k) else none := by
  obtain ⟨hr, rfl⟩ := State.loadBytes_eq_some.1 h
  rw [inRange_iff] at hr
  by_cases hk : k < m
  · rw [if_pos hk, State.readByte_of_le (by omega)]
    simp [hk]
  · simp [hk]

/-- An instruction that stores a block in range: the block's bytes, every other byte, and PC. -/
theorem State.storeBytes_of_inRange {vs : List Byte} (h : inRange base vs.length = true) :
    ∃ s', s.storeBytes base vs = some s' ∧ s'.advance = { s with mem := s'.mem, pc := s.pc + 2 } ∧
      (∀ k, k < vs.length → s'.advance.readByte (base.toNat + k) = vs[k]?) ∧
      ∀ a, a < base.toNat ∨ base.toNat + vs.length ≤ a → s'.advance.readByte a = s.readByte a := by
  have hs : s.storeBytes base vs = some _ := State.storeBytes_eq_some.2 ⟨h, rfl⟩
  refine ⟨_, hs, rfl, fun k hk => ?_, fun a ha => ?_⟩
  · rw [State.advance_readByte, State.readByte_storeBytes hs, if_pos (by omega),
      Nat.add_sub_cancel_left]
  · rw [State.advance_readByte, State.readByte_storeBytes hs, if_neg (by omega)]

end Sys2Proof.Machine
end

section
/-! The display instructions (spec/40_display.md): the pixels under a sprite, a draw pixel by pixel
with its flag, and the statements. -/

namespace Sys2Proof.Machine

/-- Settles O29: CLS puts the cleared framebuffer in; its words are its well-formed terms'. -/
theorem clsClearsFramebuffer : Obligations.ClsClearsFramebuffer := fun q s =>
  ⟨decode_encode false (.cls q) rfl, decode_encode true (.cls 0) rfl,
    fun hq => strict_decode_ne (by simpa [Instr.wf] using hq),
    _, rfl, Framebuffer.pixel_clear, rfl⟩

section draw
variable {s : State} {x y n : Nibble}

theorem exec_drw_of_load {rows : List Byte} (h : s.loadBytes s.i n.toNat = some rows) :
    exec (.drw x y n) s = .next
      ((s.setFb (drawSprite s.fb (startRow (s.reg y)) (startColumn (s.reg x)) rows).1).setFlag
        (drawSprite s.fb (startRow (s.reg y)) (startColumn (s.reg x)) rows).2).advance := by
  simp [exec, execDrw, h]

theorem exec_drw_of_out (h : ¬ inRange s.i n.toNat = true) :
    exec (.drw x y n) s = .next (s.raiseFault .dataOutOfRange (encode (.drw x y n))) := by
  simp [exec, execDrw, State.loadBytes_of_out h]

/-- The pixels under the sprite's 1 bits are those the loop touches (R142, R143). -/
theorem spriteCovers_iff {rows : List Byte} (h : s.loadBytes s.i n.toNat = some rows)
    (row : Fin 32) (col : Fin 64) :
    SpriteCovers s x y n row col ↔
      (row, col) ∈ spriteCells (startRow (s.reg y)) (startColumn (s.reg x)) rows := by
  simp only [mem_spriteCells, mem_rowCells, State.getElem?_of_loadBytes h,
    Option.ite_none_right_eq_some, Prod.mk.injEq, Fin.ext_iff, Fin.val_ofNat]
  constructor
  · rintro ⟨r, c, b, hr, hc, hb, hbit, hrow, hcol⟩
    exact ⟨r, b, ⟨hr, hb⟩, c, hc, hbit, hrow, hcol⟩
  · rintro ⟨r, b, ⟨hr, hb⟩, c, hc, hbit, hrow, hcol⟩
    exact ⟨r, c, b, hr, hc, hb, hbit, hrow, hcol⟩

theorem xor_decide_eq_true (b : Bool) (p : Prop) [Decidable p] :
    (b ^^ decide p) = true ↔ Xor (b = true) p := by
  cases b <;> simp

/-- A draw in range, pixel by pixel, with its flag (R141 to R144). -/
theorem exec_drw_spec (h : inRange s.i n.toNat = true) :
    ∃ t, exec (.drw x y n) s = .next t ∧
      (∀ row col, t.pixel row col = true ↔
        Xor (s.pixel row col = true) (SpriteCovers s x y n row col)) ∧
      (t.reg 0xF = 1 ∧ (∃ row col, s.pixel row col = true ∧ SpriteCovers s x y n row col) ∨
        t.reg 0xF = 0 ∧ ¬ ∃ row col, s.pixel row col = true ∧ SpriteCovers s x y n row col) ∧
      (∀ z, z ≠ 0xF → t.reg z = s.reg z) ∧
      t = { s with fb := t.fb, v := t.v, pc := s.pc + 2 } := by
  obtain ⟨rows, hl⟩ := State.loadBytes_of_inRange h
  have hlen : rows.length ≤ 32 := by
    have := n.isLt
    rw [(State.loadBytes_eq_some.1 hl).2, List.length_map, List.length_range]
    omega
  obtain ⟨hpix, hflag⟩ :=
    drawSprite_spec s.fb (startRow (s.reg y)) (startColumn (s.reg x)) rows hlen
  have herased : (drawSprite s.fb (startRow (s.reg y)) (startColumn (s.reg x)) rows).2 = true ↔
      ∃ row col, s.pixel row col = true ∧ SpriteCovers s x y n row col := by
    simp only [hflag, List.any_eq_true, Prod.exists, spriteCovers_iff hl, and_comm]
    rfl
  refine ⟨_, exec_drw_of_load hl, fun row col => ?_, ?_, fun z hz => ?_, rfl⟩
  · rw [State.advance_pixel, State.setFlag_pixel, State.setFb_pixel, hpix, xor_decide_eq_true,
      spriteCovers_iff hl]
    rfl
  · rw [State.advance_reg, State.reg_setFlag, if_pos rfl]
    by_cases hd : (drawSprite s.fb (startRow (s.reg y)) (startColumn (s.reg x)) rows).2 = true
    · exact .inl ⟨if_pos hd, herased.1 hd⟩
    · exact .inr ⟨if_neg hd, mt herased.2 hd⟩
  · rw [State.advance_reg, State.reg_setFlag, if_neg hz, State.setFb_reg]

end draw

/-- Settles O30: the draw in range by `exec_drw_spec`, and out of range the fault alone. -/
theorem drwXorsSprite : Obligations.DrwXorsSprite := by
  intro strict x y n s
  refine ⟨decode_encode strict (.drw x y n) rfl, fun h => ?_, fun ⟨hn, hout⟩ => ?_⟩
  · obtain ⟨t, ht, hpix, hflag, hframe⟩ := exec_drw_spec (x := x) (y := y) ((inRange_iff _ _).2 h)
    refine ⟨t, ht, hpix, fun hlit => ?_, fun hnone => ?_, hframe⟩
    · exact hflag.elim And.left fun h => absurd hlit h.2
    · exact hflag.elim (fun h => absurd h.2 hnone) And.left
  · exact exec_drw_of_out (by rw [inRange_iff]; omega)

/-- Settles O31: the second draw covers the same pixels, so it undoes the first. -/
theorem drawTwiceRestoresFramebuffer : Obligations.DrawTwiceRestoresFramebuffer := by
  intro x y n s hx hy h
  obtain ⟨t, ht, htpix, -, htreg, htframe⟩ :=
    exec_drw_spec (x := x) (y := y) ((inRange_iff _ _).2 h)
  have hi : t.i = s.i := by rw [htframe]
  have hread (a : Nat) : t.readByte a = s.readByte a := by rw [htframe]; rfl
  have hcov (row col) : SpriteCovers t x y n row col ↔ SpriteCovers s x y n row col := by
    simp only [SpriteCovers, hi, hread, htreg x hx, htreg y hy]
  obtain ⟨u, hu, hupix, huflag, -, -⟩ := exec_drw_spec (s := t) (x := x) (y := y)
    ((inRange_iff _ _).2 (hi ▸ h))
  refine ⟨t, u, ht, hu, Framebuffer.ext_pixel fun row col => ?_, ?_⟩
  · show u.pixel row col = s.pixel row col
    rw [Bool.eq_iff_iff, hupix, htpix, hcov]
    cases s.pixel row col <;> simp
  · have hlit (row col) : s.pixel row col = false ∧ t.pixel row col = true ↔
        t.pixel row col = true ∧ SpriteCovers t x y n row col := by
      rw [htpix, hcov]
      cases s.pixel row col <;> simp
    simp only [hlit]
    rcases huflag with ⟨hone, hsome⟩ | ⟨hzero, hnone⟩
    · exact ⟨fun _ => hsome, fun _ => hone⟩
    · exact ⟨fun hone => absurd (hzero.symm.trans hone) (by decide),
        fun hsome => absurd hsome hnone⟩

end Sys2Proof.Machine
end

section
/-! The instructions that store and load a block (spec/43_index_memory.md R213 to R215). -/

namespace Sys2Proof.Machine

/-- Settles O51: the block stored is the three digits. -/
theorem ldBStoresDecimalDigits : Obligations.LdBStoresDecimalDigits := by
  intro strict x s
  refine ⟨decode_encode strict (.ldB x) rfl, fun h => ?_, fun h => ?_⟩
  · obtain ⟨s', hs, hframe, hin, hout⟩ := State.storeBytes_of_inRange (s := s) (base := s.i)
      (vs := decimalDigits (s.reg x)) ((inRange_iff _ _).2 (.inr (by simpa using h)))
    refine ⟨s'.advance, by simp [exec, execLdB, hs], ?_, fun a ha => ?_, hframe⟩
    · have := (s.reg x).isLt
      refine ⟨_, _, _, hin 0 (by simp), hin 1 (by simp), hin 2 (by simp), ?_, ?_, ?_⟩ <;>
        rw [BitVec.toNat_ofNat] <;> omega
    · exact hout a (by rw [decimalDigits_length]; omega)
  · have hr : ¬ inRange s.i (decimalDigits (s.reg x)).length = true := by
      rw [inRange_iff, decimalDigits_length]; omega
    simp only [exec, execLdB, State.storeBytes_of_out hr]
    rfl

/-- Settles O52: the block stored is V0 to Vx. -/
theorem ldMemStoresRegisters : Obligations.LdMemStoresRegisters := by
  intro strict x s
  refine ⟨decode_encode strict (.ldMemVx x) rfl, fun h => ?_, fun h => ?_⟩
  · obtain ⟨s', hs, hframe, hin, hout⟩ := State.storeBytes_of_inRange (s := s) (base := s.i)
      (vs := s.regsUpTo x) ((inRange_iff _ _).2 (.inr (by simpa using h)))
    refine ⟨s'.advance, by simp [exec, execLdMemVx, hs], fun k hk => ?_, fun a ha => ?_, hframe⟩
    · rw [hin k.toNat (by rw [State.regsUpTo_length]; omega), State.regsUpTo_getElem?, if_pos hk,
        BitVec.ofNat_toNat, BitVec.setWidth_eq]
    · exact hout a (by rw [State.regsUpTo_length]; omega)
  · have hr : ¬ inRange s.i (s.regsUpTo x).length = true := by
      rw [inRange_iff, State.regsUpTo_length]; omega
    simp only [exec, execLdMemVx, State.storeBytes_of_out hr]
    rfl

/-- Settles O53: the block loaded has x + 1 bytes, one for each of V0 to Vx. -/
theorem ldVxMemLoadsRegisters : Obligations.LdVxMemLoadsRegisters := by
  intro strict x s
  refine ⟨decode_encode strict (.ldVxMem x) rfl, fun h => ?_, fun h => ?_⟩
  · obtain ⟨vs, hl⟩ := State.loadBytes_of_inRange (s := s) (base := s.i) (m := x.toNat + 1)
      ((inRange_iff _ _).2 (.inr (by simpa using h)))
    have hget := State.getElem?_of_loadBytes hl
    refine ⟨(s.setRegs vs).advance, by simp [exec, execLdVxMem, hl], fun k hk => ?_,
      fun k hk => ?_, rfl⟩
    · rw [State.advance_reg, State.reg_setRegs, hget, if_pos (by omega),
        State.readByte_of_le (by omega), Option.getD_some]
    · rw [State.advance_reg, State.reg_setRegs, hget, if_neg (by omega), Option.getD_none]
  · have hr : ¬ inRange s.i (x.toNat + 1) = true := by rw [inRange_iff]; omega
    simp only [exec, execLdVxMem, State.loadBytes_of_out hr]
    rfl

/-- Settles O54: the bytes the load reads are those the store wrote. -/
theorem storeThenLoadRestoresRegisters : Obligations.StoreThenLoadRestoresRegisters := by
  intro x s h
  obtain ⟨-, hstore, -⟩ := ldMemStoresRegisters false x s
  obtain ⟨t, ht, hstored, -, hframe⟩ := hstore h
  have hti : t.i = s.i := by rw [hframe]
  refine ⟨t, ht, fun u hmem hi hcfg => ?_⟩
  have hui : u.i = s.i := hi.trans hti
  obtain ⟨-, hload, -⟩ := ldVxMemLoadsRegisters false x u
  obtain ⟨r, hr, hloaded, -⟩ := hload (hui ▸ h)
  refine ⟨r, hr, fun k hk => Option.some.inj ?_⟩
  have hread : u.readByte (s.i.toNat + k.toNat) = t.readByte (s.i.toNat + k.toNat) := by
    simp only [State.readByte, hmem, hcfg]
  rw [← hloaded k hk, hui, hread, hstored k hk]

end Sys2Proof.Machine
end

section
/-! Reset and the load port (spec/10_state.md sections 10 and 11): what the initial memory reads as,
and the statements. -/

namespace Sys2Proof.Machine

/-- What is read of a memory nothing was written to: the glyphs, then zeros (R49, R82). -/
theorem Memory.initial_of_lt {rom : Vector Byte 80} {a : Nat} (h : a < 80) :
    Memory.initial rom a = rom[a] := dif_pos h

theorem Memory.initial_of_le {rom : Vector Byte 80} {a : Nat} (h : 80 ≤ a) :
    Memory.initial rom a = 0 := dif_neg (Nat.not_lt.2 h)

theorem Memory.read_nil (rom : Vector Byte 80) (a : Nat) :
    Memory.read rom [] a = Memory.initial rom a := rfl

theorem resetWith_readByte (p : Params) {a : Nat} (h : a ≤ 0xFFF) :
    (State.resetWith p).readByte a = some (Memory.initial p.glyphRom a) :=
  State.readByte_of_le h

/-- Settles O59: the values of the fields, and the two parts of the initial memory. -/
theorem resetState : Obligations.ResetState := by
  refine ⟨rfl, fun x => ?_, rfl, rfl, rfl, rfl, Framebuffer.pixel_clear, fun k => ?_, rfl, rfl, rfl,
    rfl, rfl, rfl, fun a h => ?_, fun a h hle => ?_, rfl, rfl, rfl, rfl⟩
  · exact Vector.getElem_replicate _
  · exact Vector.getElem_replicate _
  · exact (resetWith_readByte _ (by omega)).trans (congrArg some (Memory.initial_of_lt h))
  · exact (resetWith_readByte _ hle).trans (congrArg some (Memory.initial_of_le h))

/-- Settles O60: the image is the block stored at 0x200, and the rest of memory is as at reset. -/
theorem loadPlacesImage : Obligations.LoadPlacesImage := by
  intro p image
  refine ⟨fun h => ?_, fun h => ?_⟩
  · have hload : State.load p image =
        { State.resetWith p with mem := Memory.writeBytes p.glyphRom [] 0x200 image } :=
      if_neg (Nat.not_lt.2 h)
    have hread (a : Nat) (ha : a ≤ 0xFFF) : (State.load p image).readByte a =
        some (if 0x200 ≤ a then image[a - 0x200]?.getD (Memory.initial p.glyphRom a)
          else Memory.initial p.glyphRom a) := by
      rw [hload, State.readByte_of_le ha]
      exact congrArg some (Memory.read_writeBytes p.glyphRom image [] 0x200 a)
    refine ⟨by rw [hload], fun k hk => ?image, fun a ha => ?glyphs, fun a h80 hle hout => ?zeros⟩
    case image => rw [hread _ (by omega)]; simp [hk]
    case glyphs => rw [hread a (by omega), if_neg (by omega), Memory.initial_of_lt ha]
    case zeros =>
      have hnone (h2 : 0x200 ≤ a) : image[a - 0x200]? = none :=
        List.getElem?_eq_none (by omega)
      rw [hread a hle, Memory.initial_of_le h80]
      split
      · next h2 => rw [hnone h2]; rfl
      · rfl
  · have hload : State.load p image =
        { State.resetWith p with es := .halted, haltCause := .loadError } := if_pos h
    refine ⟨by rw [hload], by rw [hload], fun n => ?_⟩
    exact (haltedStaysHalted n _ (by rw [hload])).1

end Sys2Proof.Machine
end
